-- ==== Sys2Proof/Word.lean ====
section
/-! DEFINITION. The word types of the block: everything the spec moves is an 8-bit byte or a short unsigned field
(00_scope.md R7, section 6: "There is no signed value anywhere in this spec"). -/

namespace Sys2Proof

/-- A byte at the payload, the checksum accumulator or the transport port (00_scope.md section 6). -/
abbrev Byte := BitVec 8

/-- The datatype tag, 3 bits wide (00_scope.md R6). -/
abbrev Tag := BitVec 3

/-- The fault code shown at `fault_code[1:0]` (10_state.md R27). -/
abbrev FaultCode := BitVec 2

end Sys2Proof
end

