-- ==== Sys2Proof/Config.lean ====
section
/-! DEFINITION. What is fixed for the machine: the wire constants, the shape of the input ports, and the FREE VALUES, which
the spec leaves open. A free value is an `opaque` constant: nothing can be proved about which value it has. -/

namespace Sys2Proof

/-- The data inputs of the command port, exactly as wide as the fields (10_state.md R30, 00_scope.md R7).
There is no packed command word: the ports are separate wires (30_encoding.md R71). -/
structure CmdWires where
  dtype   : Tag
  x       : BitVec 12
  y       : BitVec 12
  th      : BitVec 12
  calib   : BitVec 13
  command : BitVec 5
  deriving DecidableEq, Repr, Inhabited

/-- The levels at all input pins at one rising edge of `clk` (10_state.md R29, R30, R31). -/
structure Pins where
  rst      : Bool
  cmdValid : Bool
  cmd      : CmdWires
  txReady  : Bool
  txErr    : Bool
  deriving DecidableEq, Repr, Inhabited

namespace Config

/-- HEADER, the wire constant that starts a frame and seeds the checksum (00_scope.md R5, R8). -/
def header : Byte := 0x7D#8

/-- ESCAPE, the byte that precedes a transformed byte (00_scope.md R5). -/
def escape : Byte := 0x7E#8

/-- ESCAPE_MASK, the exclusive-or constant of the transform (00_scope.md R5). -/
def escapeMask : Byte := 0x20#8

/-- PAYLOAD_MAX (00_scope.md R6). -/
def payloadMax : Nat := 5

/-- FREE VALUE: the levels that the environment (any host, any transport) drives at the edge of this number, where `State.pins`
lists none. The block must behave by its rules under every such environment (42_host_scheduler.md, opening paragraph).
Log entry 3. -/
opaque freePins : Nat → Pins

/-- FREE VALUE: `tx_data` while `tx_valid` is 0, "any value" (10_state.md R33, 93_implementation_defined.md U7). Log entry 8. -/
opaque freeTxData : Nat → Byte

/-- FREE VALUE, the open parameter TX_DELIVERED_ON_ERROR (00_scope.md R9, 20_memory.md R43): whether the byte whose write
failed at the edge of this number reached the wire. A model must admit both. Log entry 7. -/
opaque txDeliveredOnError : Nat → Bool

/-- FREE VALUE, the open parameter LINE_BIT_ORDER (00_scope.md R9, 20_memory.md R45): which bit of a byte leaves at each
position of a physical line. Not observable at the byte port, and no rule depends on it. Log entry 20. -/
opaque lineBitOrder : Fin 8 → Fin 8

/-- FREE VALUE: PayloadSource's draw for `x` (42_host_scheduler.md R142). Log entry 17. -/
opaque drawX : Nat → BitVec 12

/-- FREE VALUE: PayloadSource's draw for `y` (R142). -/
opaque drawY : Nat → BitVec 12

/-- FREE VALUE: PayloadSource's draw for `th` (R142). -/
opaque drawTh : Nat → BitVec 12

/-- FREE VALUE: PayloadSource's draw for `calib` (R142). -/
opaque drawCalib : Nat → BitVec 13

/-- FREE VALUE: PayloadSource's draw for `command` (R142). -/
opaque drawCommand : Nat → BitVec 5

/-- FREE VALUE: how long the three frames of a scheduler tick took (42_host_scheduler.md R144 steps 1 to 3): the duration across the
whole tick, as R145 and 93_implementation_defined.md Q2 require. FLAGGED, as Q2 asks: it differs from DOC0's original, which subtracts
only the sub-second parts of the timestamps and is wrong for a tick that spans a one-second boundary. DESIGN CHOICE: it is a whole
number of microseconds; the spec leaves the resolution of the clock open (U15, 91_not_in_source.md N18). Log entry 24. -/
opaque elapsedMicros : Nat → Nat

/-- FREE VALUE: whether the scheduler's suspension for the rest of its period is over before the edge of this number
(42_host_scheduler.md R144 step 4): how long it lasts in edges, and how accurate it is, is open (U15). Log entry 24. -/
opaque sleepOver : Nat → Bool

/-- FREE VALUE: whether one of the handled signals has arrived since the last tick boundary (42_host_scheduler.md R149). -/
opaque cancelSignal : Nat → Bool

/-- FREE VALUE: whether `1_000_000 / hz` is the exact quotient (true) or the integer one (false): not stated
(42_host_scheduler.md R144, 93_implementation_defined.md U15). -/
opaque exactPeriod : Bool

end Config

end Sys2Proof
end

