-- ==== Sys2Proof/Syntax.lean ====
section
/-! DEFINITION. The instructions: one constructor per row of spec/opcode_table.json, at the row's own level (command, wire
symbol, pseudo-operation of the host). Every operand has exactly its field's width, so a value that does not fit cannot be
written down (40_packer.md R96, 93_implementation_defined.md U1). -/

namespace Sys2Proof

/-- The opcode table's rows. -/
inductive Instr where
  /-- Command `VEL x, y, th`, tag 0 (40_packer.md R91). -/
  | vel (x y th : BitVec 12)
  /-- Command `ROT calib`, tag 1 (40_packer.md R92). -/
  | rot (calib : BitVec 13)
  /-- Command `KICK command`, tag 2 (40_packer.md R93). -/
  | kick (command : BitVec 5)
  /-- Command `BAD 3`: the table's first row for an illegal tag (40_packer.md R94, 30_encoding.md R72). -/
  | bad3
  /-- Command `BAD tag` for the tags 4 to 7, `tag = 4 + g`: the table's second row for illegal tags (R94, R72). -/
  | badHigh (g : BitVec 2)
  /-- Wire symbol HDR: the header byte at a frame start; step HDR (41_frame_encoder.md R122). -/
  | hdr
  /-- Wire symbol ESC: the first byte of an escaped pair; steps PAYB-ESC and CSB-ESC (41_frame_encoder.md R123, R125). -/
  | esc
  /-- Wire symbol XVAL: the byte `010111vv` directly after ESC; steps PAYB-VAL and CSB-VAL with `esc == 1` (R124, R126). -/
  | xval (v : BitVec 2)
  /-- Wire symbol LIT: any other byte; steps PAYB-VAL and CSB-VAL with `esc == 0` (R124, R126, 30_encoding.md R75). -/
  | lit (b : Byte)
  /-- Pseudo-operation TICK of the host: `VEL x, y, th`; `ROT calib`; `KICK command` (30_encoding.md R76). -/
  | tick (x y th : BitVec 12) (calib : BitVec 13) (command : BitVec 5)
  deriving DecidableEq, Repr

end Sys2Proof
end

