-- ==== Sys2Proof/WellFormed.lean ====
section
/-! DEFINITION. Which instructions the block can ever produce or be given. The command operands are in range by their types
(40_packer.md R96); what is left to check are the two wire symbols whose pattern in the table is wider than their legal values. -/

namespace Sys2Proof

/-- XVAL's legal values are `01` (0x5D) and `10` (0x5E); `00` and `11` are never produced (opcode table, 30_encoding.md R73). -/
def Instr.xvalLegal (v : BitVec 2) : Bool := v == 1#2 || v == 2#2

/-- LIT excludes 0x7D and 0x7E (opcode table, 30_encoding.md R68). -/
def Instr.litLegal (b : Byte) : Bool := !(b == Config.header || b == Config.escape)

/-- A well-formed instruction. -/
def Instr.wf : Instr → Bool
  | .vel _ _ _ => true
  | .rot _ => true
  | .kick _ => true
  | .bad3 => true
  | .badHigh _ => true
  | .hdr => true
  | .esc => true
  | .xval v => Instr.xvalLegal v
  | .lit b => Instr.litLegal b
  | .tick _ _ _ _ _ => true

end Sys2Proof
end

