-- ==== Sys2Proof/Decode.lean ====
section
/-! DEFINITION. The block's three encodings and how each is read: the command format at the command port, the payload format,
and the wire symbols (30_encoding.md). Decoding is total and rejects by name; the encoder follows it, written from the spec's
layout tables. Last, how a word of spec/opcode_table.json is laid out for the decoder. -/

namespace Sys2Proof

/-- Where in the wire stream a byte stands; the same byte value is a different symbol at another place (30_encoding.md R77). -/
inductive WirePos where
  /-- The first byte of a frame. -/
  | frameStart
  /-- Inside a frame, not directly after an escape byte. -/
  | inFrame
  /-- Directly after an escape byte. -/
  | afterEscape
  deriving DecidableEq, Repr

/-- One line of a host program (30_encoding.md R75): the levels the host puts on the command port's wires and holds until the
command is accepted, or the pseudo-operation TICK, which has no encoding (R76). -/
inductive Line where
  | command (w : CmdWires)
  | tick (x y th : BitVec 12) (calib : BitVec 13) (command : BitVec 5)
  deriving DecidableEq, Repr

/-- What can be decoded, at the three levels of 30_encoding.md R77: a host's line, a payload, or one wire byte at its place. -/
inductive Code where
  | line (l : Line)
  | payload (bytes : List Byte)
  | symbol (pos : WirePos) (b : Byte)
  deriving DecidableEq, Repr

/-- Why a code is no instruction. -/
inductive Reject where
  /-- A payload has at least one byte (30_encoding.md R60). -/
  | emptyPayload
  /-- `b0[7:5]` is 3 to 7: no payload format exists (30_encoding.md R64, R72). -/
  | reservedTag
  /-- The number of bytes is not the tag's payload length (30_encoding.md R60). -/
  | wrongLength
  /-- `b3[4]` of a VelocityVector is 1, which is never produced (30_encoding.md R65, R73). -/
  | padBitSet
  /-- A frame starts with 0x7D and nothing else (30_encoding.md R67). -/
  | noHeader
  /-- 0x7D occurs only as the first byte of a frame (30_encoding.md R70, R73). -/
  | headerInsideFrame
  /-- 0x7E is the first byte of an escaped pair, never the second (30_encoding.md R70, R73). -/
  | escapeAfterEscape
  deriving DecidableEq, Repr

/-- The command that stands at the command port (30_encoding.md R71): `cmd_dtype` selects it, and the operand ports that the
tag does not use are ignored (10_state.md R30). -/
def decodeCommand (w : CmdWires) : Instr :=
  if w.dtype = 0#3 then .vel w.x w.y w.th
  else if w.dtype = 1#3 then .rot w.calib
  else if w.dtype = 2#3 then .kick w.command
  else if w.dtype = 3#3 then .bad3
  else .badHigh (w.dtype.extractLsb' 0 2)

/-- A host's line (30_encoding.md R75, R76). -/
def decodeLine : Line → Instr
  | .command w => decodeCommand w
  | .tick x y th calib command => .tick x y th calib command

/-- A VelocityVector payload: `x = {b0[4:0], b1[7:1]}`, `y = {b1[0], b2[7:0], b3[7:5]}`, `th = {b3[3:0], b4[7:0]}`, and the
pad bit `b3[4]` is 0 (30_encoding.md R65, R66). -/
def decodeVelocity (b0 b1 b2 b3 b4 : Byte) : Except Reject Instr :=
  if b3.extractLsb' 4 1 = 0#1 then
    .ok (.vel (b0.extractLsb' 0 5 ++ b1.extractLsb' 1 7)
      (b1.extractLsb' 0 1 ++ b2 ++ b3.extractLsb' 5 3)
      (b3.extractLsb' 0 4 ++ b4))
  else .error .padBitSet

/-- A payload, read whole: `b0[7:5]` alone selects the format and the length (30_encoding.md R64), then the fields by R66. -/
def decodePayload (bytes : List Byte) : Except Reject Instr :=
  match bytes with
  | [] => .error .emptyPayload
  | b0 :: rest =>
    if b0.extractLsb' 5 3 = 0#3 then
      match rest with
      | [b1, b2, b3, b4] => decodeVelocity b0 b1 b2 b3 b4
      | _ => .error .wrongLength
    else if b0.extractLsb' 5 3 = 1#3 then
      match rest with
      | [b1] => .ok (.rot (b0.extractLsb' 0 5 ++ b1))
      | _ => .error .wrongLength
    else if b0.extractLsb' 5 3 = 2#3 then
      match rest with
      | [] => .ok (.kick (b0.extractLsb' 0 5))
      | _ => .error .wrongLength
    else .error .reservedTag

/-- One wire byte at its place (30_encoding.md R68, R75, R77): 0x7D at a frame start is HDR; 0x7E is ESC; directly after it
a byte of the table's XVAL pattern is XVAL; "LIT (any other byte)". XVAL's two values that are never produced are left to
`Instr.wf`. Log entry 11. -/
def decodeSymbol (pos : WirePos) (b : Byte) : Except Reject Instr :=
  match pos with
  | .frameStart => if b = Config.header then .ok .hdr else .error .noHeader
  | .inFrame =>
    if b = Config.header then .error .headerInsideFrame
    else if b = Config.escape then .ok .esc
    else .ok (.lit b)
  | .afterEscape =>
    if b = Config.header then .error .headerInsideFrame
    else if b = Config.escape then .error .escapeAfterEscape
    else if b.extractLsb' 2 6 = 0b010111#6 then .ok (.xval (b.extractLsb' 0 2))
    else .ok (.lit b)

/-- The decoder. -/
def decode : Code → Except Reject Instr
  | .line l => .ok (decodeLine l)
  | .payload bytes => decodePayload bytes
  | .symbol pos b => decodeSymbol pos b

/-! ### The encoder -/

/-- The layout table of 30_encoding.md R61: tag `000`, `x`, `y`, one zero bit, `th`. -/
def encodeVelocity (x y th : BitVec 12) : List Byte :=
  [0b000#3 ++ x.extractLsb' 7 5,
   x.extractLsb' 0 7 ++ y.extractLsb' 11 1,
   y.extractLsb' 3 8,
   y.extractLsb' 0 3 ++ 0b0#1 ++ th.extractLsb' 8 4,
   th.extractLsb' 0 8]

/-- The layout table of 30_encoding.md R62: tag `001`, `calib`. -/
def encodeRotation (calib : BitVec 13) : List Byte :=
  [0b001#3 ++ calib.extractLsb' 8 5, calib.extractLsb' 0 8]

/-- The layout table of 30_encoding.md R63: tag `010`, `command`. -/
def encodeKicker (command : BitVec 5) : List Byte :=
  [0b010#3 ++ command]

/-- The wires of a tag with every operand port at 0. -/
def CmdWires.ofTag (tag : Tag) : CmdWires :=
  { dtype := tag, x := 0, y := 0, th := 0, calib := 0, command := 0 }

/-- XVAL's byte `010111vv` (opcode table). -/
def xvalByte (v : BitVec 2) : Byte := 0b010111#6 ++ v

/-- The encoding of an instruction at its own level: a payload for the three valid commands, the port's tag for the illegal ones
(no payload exists for them, 30_encoding.md R72), a wire byte for the symbols, the host's line for TICK. -/
def encode : Instr → Code
  | .vel x y th => .payload (encodeVelocity x y th)
  | .rot calib => .payload (encodeRotation calib)
  | .kick command => .payload (encodeKicker command)
  | .bad3 => .line (.command (CmdWires.ofTag 3#3))
  | .badHigh g => .line (.command (CmdWires.ofTag (0b1#1 ++ g)))
  | .hdr => .symbol .frameStart Config.header
  | .esc => .symbol .inFrame Config.escape
  | .xval v => .symbol .afterEscape (xvalByte v)
  | .lit b => .symbol .inFrame b
  | .tick x y th calib command => .line (.tick x y th calib command)

/-- The line by which a host presents an instruction (30_encoding.md R71, R75); a wire symbol is no line of a host. -/
def lineOf : Instr → Option Line
  | .vel x y th => some (.command { CmdWires.ofTag 0#3 with x := x, y := y, th := th })
  | .rot calib => some (.command { CmdWires.ofTag 1#3 with calib := calib })
  | .kick command => some (.command { CmdWires.ofTag 2#3 with command := command })
  | .bad3 => some (.command (CmdWires.ofTag 3#3))
  | .badHigh g => some (.command (CmdWires.ofTag (0b1#1 ++ g)))
  | .hdr => none
  | .esc => none
  | .xval _ => none
  | .lit _ => none
  | .tick x y th calib command => some (.tick x y th calib command)

/-! ### Words of the opcode table -/

/-- `n` bytes of a number, the most significant first: the table numbers a payload's bits from the last byte's bit 0 up to
`b0[7]` (opcode table, "bit 39 is b0[7], bit 0 is b4[0]"). -/
def bytesOf : Nat → Nat → List Byte
  | 0, _ => []
  | n + 1, w => BitVec.ofNat 8 (w >>> (8 * n)) :: bytesOf n w

/-- An 8-bit word of the table. Its rows are of three levels and overlap on 8 bits; the row that fixes the most bits is taken
(the two BAD rows fix a 3-bit tag in a word of otherwise zero bits). Log entry 13. -/
def byteCode (w : Nat) : Code :=
  let b := BitVec.ofNat 8 w
  if 3 ≤ w ∧ w < 8 then .line (.command (CmdWires.ofTag (BitVec.ofNat 3 w)))
  else if b = Config.header then .symbol .frameStart b
  else if b = Config.escape then .symbol .inFrame b
  else if b.extractLsb' 2 6 = 0b010111#6 then .symbol .afterEscape b
  else if b.extractLsb' 5 3 = 0b010#3 then .payload [b]
  else .symbol .inFrame b

/-- How a word of the table of `nbits` bits is laid out for the decoder: no bits at all is TICK, which has no encoding; fewer
than 8 bits are the tag at the command port; 8 bits as `byteCode` says; longer words are a payload. Log entry 13. -/
def tableCode (nbits w : Nat) : Code :=
  if nbits = 0 ∧ w = 0 then .line (.tick 0 0 0 0 0)
  else if nbits < 8 then .line (.command (CmdWires.ofTag (BitVec.ofNat 3 w)))
  else if nbits = 8 then byteCode w
  else .payload (bytesOf (nbits / 8) w)

/-- The instruction the decoder reads from a word of the opcode table, none where it rejects the word. -/
def decodeTableWord (nbits w : Nat) : Option Instr := (decode (tableCode nbits w)).toOption

end Sys2Proof
end

