-- ==== Sys2Proof/Machine/State.lean ====
section
/-! DEFINITION. What the machine holds, why it can stop, and the state right after reset. The first seven fields of `State` are
the block's whole state (10_state.md R20); then the two streams (20_memory.md R40); then the environment, which the spec keeps
outside the block (10_state.md R28) and which stands here so that a step is a function of `State` alone. -/

namespace Sys2Proof.Machine

/-- The sequencer's phase (10_state.md R23); its binary code is not observable (93_implementation_defined.md U8). -/
inductive Phase where
  | idle
  | hdr
  | pay
  | csum
  | fault
  deriving DecidableEq, Repr

/-- `pb[0..4]`: five registers of 8 bits (10_state.md R21). -/
structure PayloadBuffer where
  b0 : Byte
  b1 : Byte
  b2 : Byte
  b3 : Byte
  b4 : Byte
  deriving DecidableEq, Repr

/-- Where the TransmissionScheduler stands in its tick (42_host_scheduler.md R144). -/
inductive TickStage where
  /-- Before a tick: step 1. -/
  | start
  /-- The three commands are being offered and framed: step 2. -/
  | frames
  /-- Suspended for the rest of the period: step 4. -/
  | suspended
  /-- The tick boundary: steps 5 and 6. -/
  | boundary
  deriving DecidableEq, Repr

/-- The TransmissionScheduler as DOC0 describes it: a host, not part of the block (42_host_scheduler.md). Log entry 17. -/
structure Scheduler where
  /-- `Running` (true) or `Stopped` (R143). -/
  running : Bool
  /-- HZ, the tick rate (R153). -/
  hz : Nat
  /-- TICK_LIMIT, the bound of bounded mode (R153). -/
  tickLimit : Option Nat
  /-- The tick counter (R144 step 5). -/
  ticks : Nat
  /-- Where it stands in its tick (R144). -/
  stage : TickStage
  /-- The cooperative cancellation flag (R149). -/
  cancel : Bool
  /-- The counter of overruns that R146 asks for. -/
  overruns : Nat
  /-- The number of diagnostic lines written to the error stream (R147). -/
  diagnostics : Nat
  deriving DecidableEq, Repr

/-- The machine. -/
structure State where
  /-- The payload buffer (R21). -/
  pb : PayloadBuffer
  /-- The payload length (R22). -/
  plen : BitVec 3
  /-- The sequencer's phase (R23). -/
  phase : Phase
  /-- The index of the payload byte being written (R24). -/
  idx : BitVec 3
  /-- The escape byte of the current byte has been written (R25). -/
  esc : Bool
  /-- The checksum accumulator (R26). -/
  acc : Byte
  /-- The fault code (R27). -/
  fcode : FaultCode
  /-- The wire stream: the bytes the transport has taken, oldest first (20_memory.md R40, R43). -/
  wire : List Byte
  /-- The command stream: the commands accepted, oldest first (20_memory.md R40, R30). -/
  accepted : List Instr
  /-- The environment: the levels at the input pins at the coming edges, the next edge first. Log entry 3. -/
  pins : List Pins
  /-- The environment: the host's lines still to be accepted, the first one held at the command port. Log entry 4. -/
  program : List Line
  /-- The environment: DOC0's scheduler, where it is the host. Log entry 17. -/
  sched : Option Scheduler
  /-- The model's own: the number of the coming edge, which the free values are applied to. Log entry 3. -/
  edge : Nat
  /-- A RESET edge has happened since power-up; before it nothing has a meaning (70_reset_and_hazards.md R200, U6). Log entry 2. -/
  live : Bool
  deriving DecidableEq, Repr

/-- The faults of the model itself (the block's two faults are next states, 60_exceptions.md R174, R175). -/
inductive Fault where
  /-- Raised by a step in phase PAY whose `idx` is 5, 6 or 7: `pb` has the registers 0 to 4 only (10_state.md R21). Safe: the
  model stops where the spec gives no byte; no state reachable from reset raises it (R35 (b)). Log entry 9. -/
  | noSuchPayloadByte
  deriving DecidableEq, Repr

/-- Why the model gives a step no meaning. -/
inductive Refusal where
  /-- Raised by an arm of `exec` whose instruction has no meaning yet. Safe. No arm does. -/
  | notModelled (mnemonic : String)
  /-- Raised by a step at an edge without `rst` before the first RESET edge after power-up: "a run that does not begin with a
  RESET step has no meaning" (93_implementation_defined.md U6). Safe. Log entry 2. -/
  | beforeFirstReset
  deriving DecidableEq, Repr

/-- The block right after its RESET edge (10_state.md R34), in an environment that has done nothing yet. `phase`, `esc` and
`fcode` are the spec's values; `pb`, `plen`, `idx` and `acc` are "unspecified" there and the zeros are the model's. Log entry 1. -/
def State.reset : State where
  pb := { b0 := 0, b1 := 0, b2 := 0, b3 := 0, b4 := 0 }
  plen := 0
  phase := .idle
  idx := 0
  esc := false
  acc := 0
  fcode := 0
  wire := []
  accepted := []
  pins := []
  program := []
  sched := none
  edge := 0
  live := true

end Sys2Proof.Machine
end

