-- ==== Sys2Proof/Machine/Flags.lean ====
section
/-! DEFINITION. The block's one data-dependent test and transform (41_frame_encoder.md R111), and its status outputs, each a
function of the state alone (10_state.md R33). -/

namespace Sys2Proof.Machine

/-- `collide(b)`: the byte equals the header or the escape byte (41_frame_encoder.md R111). -/
def collide (b : Byte) : Bool := b == Config.header || b == Config.escape

/-- `xf(b)`: the transmitted value of a byte (41_frame_encoder.md R111). -/
def xf (b : Byte) : Byte := if collide b then b ^^^ Config.escapeMask else b

/-- The escape byte of `b` is due: it collides and its escape byte has not been written (41_frame_encoder.md R120). -/
def escapeFirst (b : Byte) (esc : Bool) : Bool := collide b && !esc

/-- `cmd_ready` (10_state.md R33). -/
def State.cmdReady (s : State) : Bool := s.phase == .idle

/-- `tx_valid` (10_state.md R33). -/
def State.txValid (s : State) : Bool := s.phase == .hdr || s.phase == .pay || s.phase == .csum

/-- `busy` (10_state.md R33). -/
def State.busy (s : State) : Bool := s.phase == .hdr || s.phase == .pay || s.phase == .csum

/-- `fault` (10_state.md R33). -/
def State.faultOut (s : State) : Bool := s.phase == .fault

/-- `fault_code` (10_state.md R33). -/
def State.faultCode (s : State) : FaultCode := s.fcode

end Sys2Proof.Machine
end

