-- ==== Sys2Proof/Machine/Operands.lean ====
section
/-! DEFINITION. What a step reads: the levels at the input pins, the payload byte at an index, and the byte and the symbol
that the block offers at the transport port (10_state.md R30, R31, R33). -/

namespace Sys2Proof.Machine

/-- The buffer loaded by an accept: the payload's bytes, and 0x00 at the indexes above (41_frame_encoder.md R121). -/
def PayloadBuffer.load (p : List Byte) : PayloadBuffer where
  b0 := p.getD 0 0
  b1 := p.getD 1 0
  b2 := p.getD 2 0
  b3 := p.getD 3 0
  b4 := p.getD 4 0

/-- The registers in index order. -/
def PayloadBuffer.toList (pb : PayloadBuffer) : List Byte := [pb.b0, pb.b1, pb.b2, pb.b3, pb.b4]

/-- `pb[idx]`; there is no register of index 5 or above (10_state.md R21). -/
def PayloadBuffer.get (pb : PayloadBuffer) (idx : BitVec 3) : Option Byte := pb.toList[idx.toNat]?

/-- The levels the environment drives at the coming edge: scripted, or free. Log entry 3. -/
def State.rawPins (s : State) : Pins := s.pins.headD (Config.freePins s.edge)

/-- DOC0's scheduler is the host and runs (42_host_scheduler.md R143). -/
def State.hosted (s : State) : Bool :=
  match s.sched with
  | some h => h.running
  | none => false

/-- The host's next line is a command. -/
def State.commandNext (s : State) : Bool :=
  match s.program with
  | .command _ :: _ => true
  | .tick _ _ _ _ _ :: _ => false
  | [] => false

/-- `cmd_valid` at the coming edge. DOC0's scheduler asserts it only while it runs and has a command next, after the frame before is
complete (42_host_scheduler.md R144, R154, R157); DESIGN CHOICE: at every such edge, with no gap.
Another host holds the next command of its program at the
port until it is accepted (70_reset_and_hazards.md R205), offers nothing before it has expanded a TICK, and is free when it has no
program. Log entries 3, 4, 17. -/
def State.cmdValidLevel (s : State) : Bool :=
  match s.sched with
  | some h => h.running && s.phase == .idle && s.commandNext
  | none => s.commandNext || (s.program.isEmpty && s.rawPins.cmdValid)

/-- The levels at the input pins at the coming edge. DOC0's scheduler never asserts `rst` after start-up while it runs
(42_host_scheduler.md R157); DESIGN CHOICE: once it has stopped, for any reason, `rst` is the environment's again
(R154). Log entries 3, 4, 17. -/
def State.levels (s : State) : Pins :=
  { s.rawPins with
    rst := s.rawPins.rst && !s.hosted
    cmdValid := s.cmdValidLevel
    cmd :=
      match s.program with
      | .command w :: _ => w
      | _ => s.rawPins.cmd }

/-- The logical byte whose turn it is: `pb[idx]` in PAY, `acc` in CSUM (10_state.md R23). -/
def State.currentByte (s : State) : Option Byte :=
  match s.phase with
  | .pay => s.pb.get s.idx
  | .csum => some s.acc
  | _ => none

/-- The wire byte of a logical byte: its escape byte first, if one is due, else its transmitted value (10_state.md R33). -/
def wireByteOf (b : Byte) (esc : Bool) : Byte := if escapeFirst b esc then Config.escape else xf b

/-- The byte the block offers while `tx_valid` is 1 (10_state.md R33); none where R33 leaves `tx_data` unspecified, and in PAY
at an index for which there is no register. -/
def State.wireByte (s : State) : Option Byte :=
  match s.phase with
  | .hdr => some Config.header
  | _ => s.currentByte.map (wireByteOf · s.esc)

/-- `tx_data` (10_state.md R33): unspecified, that is free, where no byte is offered. Log entry 8. -/
def State.txData (s : State) : Byte := s.wireByte.getD (Config.freeTxData s.edge)

/-- Where in the wire stream the offered byte stands: the header starts the frame, and `esc` says that the escape byte of the
current byte has just been written (10_state.md R25). -/
def State.wirePos (s : State) : WirePos :=
  match s.phase with
  | .hdr => .frameStart
  | _ => if s.esc then .afterEscape else .inFrame

/-- The wire symbol that the block's next writing step writes, read by the decoder from the offered byte at its place. -/
def State.due (s : State) : Option Instr :=
  match s.wireByte with
  | some b => (decodeSymbol s.wirePos b).toOption
  | none => none

end Sys2Proof.Machine
end

