-- ==== Sys2Proof/Machine/Ops.lean ====
section
/-! DEFINITION. The named operations that the meanings share: taking a fault and the one way back, the transport write, loading
an accepted command, and the state writes of the writing steps. -/

namespace Sys2Proof.Machine

/-- Taking a fault, the one shared entry: the sticky phase and the code, and nothing else is written
(60_exceptions.md R174, R175, R176). -/
def State.raise (s : State) (code : FaultCode) : State := { s with phase := .fault, fcode := code }

/-- InvalidDatatype (60_exceptions.md R171). -/
def invalidDatatype : FaultCode := 1#2

/-- TransportWriteError (60_exceptions.md R171). -/
def transportWriteError : FaultCode := 2#2

/-- The RESET step's writes, the only way out of FAULT: `pb`, `plen`, `idx` and `acc` are not written
(70_reset_and_hazards.md R200, 60_exceptions.md R178). -/
def State.resetWrites (s : State) : State := { s with phase := .idle, esc := false, fcode := 0, live := true }

/-- The edge is over: the environment's next levels come up. -/
def State.advance (s : State) : State := { s with pins := s.pins.tail, edge := s.edge + 1 }

/-- A byte the transport has taken (20_memory.md R43). -/
def State.deliver (s : State) (b : Byte) : State := { s with wire := s.wire ++ [b] }

/-- The transport write at its edge (20_memory.md R43). It succeeds: the byte joins the wire stream and the step's own writes,
`done`, take effect. It fails: the fault entry replaces them, and whether the byte reached the wire is open
(60_exceptions.md R175). Log entry 7. -/
def State.txWrite (s done : State) (b : Byte) : State :=
  if s.levels.txErr then
    if Config.txDeliveredOnError s.edge then (s.raise transportWriteError).deliver b else s.raise transportWriteError
  else done.deliver b

/-- The command joins the command stream (20_memory.md R40). Log entry 6. -/
def State.record (s : State) (i : Instr) : State := { s with accepted := s.accepted ++ [i] }

/-- What ACCEPT loads for a valid command (41_frame_encoder.md R121): all five registers of `pb` at once, `plen`, `idx`, `esc`
and the phase; `acc` is not written. -/
def State.loadPayload (s : State) (p : List Byte) : State :=
  { s with pb := .load p, plen := BitVec.ofNat 3 p.length, idx := 0, esc := false, phase := .hdr }

/-- ACCEPT of a valid command in IDLE (41_frame_encoder.md R121); in any other phase the command waits at the port and is
ignored (60_exceptions.md R177, 70_reset_and_hazards.md R206). Log entry 10. -/
def State.accept (s : State) (i : Instr) (p : List Byte) : State :=
  if s.phase = .idle then (s.record i).loadPayload p else s

/-- ACCEPT of an illegal tag in IDLE: the command is consumed and InvalidDatatype is taken (41_frame_encoder.md R121,
60_exceptions.md R174); in any other phase it is ignored. Log entry 10. -/
def State.acceptIllegal (s : State) (i : Instr) : State :=
  if s.phase = .idle then (s.record i).raise invalidDatatype else s

/-- Step HDR's own writes (41_frame_encoder.md R122). -/
def State.headerWrites (s : State) : State :=
  { s with acc := Config.header, phase := if s.plen = 0 then .csum else .pay }

/-- The own writes of PAYB-ESC and CSB-ESC (41_frame_encoder.md R123, R125). -/
def State.escapeWrites (s : State) : State := { s with esc := true }

/-- PAYB-VAL's own writes, for the transmitted value `t` (41_frame_encoder.md R124). -/
def State.payloadWrites (s : State) (t : Byte) : State :=
  { s with
    acc := s.acc + t
    esc := false
    idx := s.idx + 1
    phase := if s.idx + 1 = s.plen then .csum else .pay }

/-- CSB-VAL's own writes (41_frame_encoder.md R126). -/
def State.checksumWrites (s : State) : State := { s with esc := false, phase := .idle }

/-- The own writes of the step that writes a transmitted value: PAYB-VAL in PAY, CSB-VAL in CSUM. -/
def State.valueWrites (s : State) (t : Byte) : State :=
  match s.phase with
  | .pay => s.payloadWrites t
  | _ => s.checksumWrites

/-- A writing step as the meaning of the symbol it writes: if the symbol is the one due and the transport is ready, its byte is
written and the step's own writes are `done`; if not, no step of it is enabled and nothing changes (41_frame_encoder.md R120,
R127). Log entry 10. -/
def State.writeSymbol (s : State) (i : Instr) (b : Byte) (done : State) : State :=
  if s.due = some i ∧ s.levels.txReady = true then s.txWrite done b else s

end Sys2Proof.Machine
end

