-- ==== Sys2Proof/Machine/Packer.lean ====
section
/-! DEFINITION. PayloadPacker: the pure function from a command to its payload (40_packer.md). It reads no state. -/

namespace Sys2Proof.Machine

/-- `trunc8(v) = v mod 256` (00_scope.md section 6): every packed byte is its formula's value reduced to 8 bits (40_packer.md R90). -/
def trunc8 (v : Nat) : Byte := BitVec.ofNat 8 v

/-- Why `pack` gives no payload. -/
inductive PackError where
  /-- "Fails with InvalidDatatype if given a tag outside (0,1,2)" (40_packer.md R94); the tag is the argument of the raise. -/
  | invalidDatatype (tag : Tag)
  /-- The instruction is a wire symbol or TICK: no command, so outside the domain of `pack` (40_packer.md R90). -/
  | noCommand
  deriving DecidableEq, Repr

/-- The formulas of 40_packer.md R91 for a VelocityVector. -/
def packVelocity (x y th : BitVec 12) : List Byte :=
  [trunc8 ((0 <<< 5) ||| (x.toNat >>> 7)),
   trunc8 (((x.toNat &&& 0x7F) <<< 1) ||| (y.toNat >>> 11)),
   trunc8 ((y.toNat >>> 3) &&& 0xFF),
   trunc8 (((y.toNat &&& 0x3F) <<< 5) ||| (th.toNat >>> 8)),
   trunc8 (th.toNat &&& 0xFF)]

/-- The formulas of 40_packer.md R92 for a RotationCalibration. -/
def packRotation (calib : BitVec 13) : List Byte :=
  [trunc8 ((1 <<< 5) ||| (calib.toNat >>> 8)), trunc8 (calib.toNat &&& 0xFF)]

/-- The formula of 40_packer.md R93 for a KickerCommand. -/
def packKicker (command : BitVec 5) : List Byte :=
  [trunc8 ((2 <<< 5) ||| command.toNat)]

/-- `pack`, by cases on the command kind (40_packer.md R90). -/
def pack : Instr → Except PackError (List Byte)
  | .vel x y th => .ok (packVelocity x y th)
  | .rot calib => .ok (packRotation calib)
  | .kick command => .ok (packKicker command)
  | .bad3 => .error (.invalidDatatype 3#3)
  | .badHigh g => .error (.invalidDatatype (0b1#1 ++ g))
  | .hdr => .error .noCommand
  | .esc => .error .noCommand
  | .xval _ => .error .noCommand
  | .lit _ => .error .noCommand
  | .tick _ _ _ _ _ => .error .noCommand

end Sys2Proof.Machine
end

