-- ==== Sys2Proof/Machine/Commands.lean ====
section
/-! DEFINITION. The commands: the ACCEPT step for each row of the table at the command port (41_frame_encoder.md R121). -/

namespace Sys2Proof.Machine

/-- `VEL x, y, th` (40_packer.md R91). -/
def execVel (x y th : BitVec 12) (s : State) : Host.Outcome State Fault Refusal :=
  .next (s.accept (.vel x y th) (packVelocity x y th))

/-- `ROT calib` (40_packer.md R92). -/
def execRot (calib : BitVec 13) (s : State) : Host.Outcome State Fault Refusal :=
  .next (s.accept (.rot calib) (packRotation calib))

/-- `KICK command` (40_packer.md R93). -/
def execKick (command : BitVec 5) (s : State) : Host.Outcome State Fault Refusal :=
  .next (s.accept (.kick command) (packKicker command))

/-- `BAD 3` (40_packer.md R94). -/
def execBad3 (s : State) : Host.Outcome State Fault Refusal :=
  .next (s.acceptIllegal .bad3)

/-- `BAD tag`, `tag = 4 + g` (40_packer.md R94). -/
def execBadHigh (g : BitVec 2) (s : State) : Host.Outcome State Fault Refusal :=
  .next (s.acceptIllegal (.badHigh g))

end Sys2Proof.Machine
end

