-- ==== Sys2Proof/Machine/Symbols.lean ====
section
/-! DEFINITION. The wire symbols: the five writing steps of 41_frame_encoder.md R122 to R126, each as the meaning of the symbol
it puts on the wire. -/

namespace Sys2Proof.Machine

/-- HDR: the header byte, "always, with no escape test" (41_frame_encoder.md R122). -/
def execHdr (s : State) : Host.Outcome State Fault Refusal :=
  .next (s.writeSymbol .hdr Config.header s.headerWrites)

/-- ESC: the escape byte of the payload byte or of the checksum (41_frame_encoder.md R123, R125). -/
def execEsc (s : State) : Host.Outcome State Fault Refusal :=
  .next (s.writeSymbol .esc Config.escape s.escapeWrites)

/-- XVAL: the transformed byte after its escape byte (41_frame_encoder.md R124, R126). -/
def execXval (v : BitVec 2) (s : State) : Host.Outcome State Fault Refusal :=
  .next (s.writeSymbol (.xval v) (xvalByte v) (s.valueWrites (xvalByte v)))

/-- LIT: a byte that stands for itself (41_frame_encoder.md R124, R126). -/
def execLit (b : Byte) (s : State) : Host.Outcome State Fault Refusal :=
  .next (s.writeSymbol (.lit b) b (s.valueWrites b))

end Sys2Proof.Machine
end

