-- ==== Sys2Proof/Machine/Tick.lean ====
section
/-! DEFINITION. The host's pseudo-operation TICK (30_encoding.md R76). -/

namespace Sys2Proof.Machine

/-- The three lines TICK stands for, in the fixed order VEL, ROT, KICK (30_encoding.md R76, 42_host_scheduler.md R144). -/
def tickLines (x y th : BitVec 12) (calib : BitVec 13) (command : BitVec 5) : List Line :=
  [.command { CmdWires.ofTag 0#3 with x := x, y := y, th := th },
   .command { CmdWires.ofTag 1#3 with calib := calib },
   .command { CmdWires.ofTag 2#3 with command := command }]

/-- TICK expands in the host's program; "the block does not know about ticks" (30_encoding.md R76). -/
def execTick (x y th : BitVec 12) (calib : BitVec 13) (command : BitVec 5) (s : State) : Host.Outcome State Fault Refusal :=
  .next { s with program := tickLines x y th calib command ++ s.program }

end Sys2Proof.Machine
end

