-- ==== Sys2Proof/Machine/Dispatch.lean ====
section
/-! DEFINITION. One arm per row of the opcode table. -/

namespace Sys2Proof.Machine

def exec (i : Instr) (s : State) : Host.Outcome State Fault Refusal :=
  match i with
  | .vel x y th => Sys2Proof.Machine.execVel x y th s
  | .rot calib => Sys2Proof.Machine.execRot calib s
  | .kick command => Sys2Proof.Machine.execKick command s
  | .bad3 => Sys2Proof.Machine.execBad3 s
  | .badHigh g => Sys2Proof.Machine.execBadHigh g s
  | .hdr => Sys2Proof.Machine.execHdr s
  | .esc => Sys2Proof.Machine.execEsc s
  | .xval v => Sys2Proof.Machine.execXval v s
  | .lit b => Sys2Proof.Machine.execLit b s
  | .tick x y th calib command => Sys2Proof.Machine.execTick x y th calib command s

end Sys2Proof.Machine
end

