-- ==== Sys2Proof/Machine/Sched.lean ====
section
/-! DEFINITION. DOC0's TransmissionScheduler as a host (42_host_scheduler.md R143 to R157). It binds the host, never the block, and
the machine runs it only where `State.sched` holds one. Log entries 17 and 23. -/

namespace Sys2Proof.Machine

/-- HZ from the command line's first argument: valid in 1 to 99999, "else default 120" (42_host_scheduler.md R153). -/
def hzOfArgument (a : Option Int) : Nat :=
  match a with
  | some n => if 0 < n ∧ n < 100000 then n.toNat else 120
  | none => 120

/-- TICK_LIMIT from the second argument: "positive integer enables bounded mode, else unbounded" (42_host_scheduler.md R153). -/
def limitOfArgument (a : Option Int) : Option Nat :=
  match a with
  | some n => if 0 < n then some n.toNat else none
  | none => none

/-- The scheduler at start: `Running` (42_host_scheduler.md R143), nothing counted. -/
def Scheduler.start (hzArgument limitArgument : Option Int) : Scheduler where
  running := true
  hz := hzOfArgument hzArgument
  tickLimit := limitOfArgument limitArgument
  ticks := 0
  stage := .start
  cancel := false
  overruns := 0
  diagnostics := 0

/-- TimingOverrun: `elapsed >= targetPeriod`, where the period is `1_000_000 / hz` microseconds and the kind of division is not
stated (42_host_scheduler.md R144, R146). -/
def overrun (exact : Bool) (hz elapsed : Nat) : Bool :=
  if exact then decide (1000000 ≤ elapsed * hz) else decide (1000000 / hz ≤ elapsed)

/-- Bounded mode and the counter has reached the limit (42_host_scheduler.md R144 step 5). -/
def boundReached (limit : Option Nat) (ticks : Nat) : Bool :=
  match limit with
  | some n => decide (n ≤ ticks)
  | none => false

/-- Steps 3 and 4 of a tick (42_host_scheduler.md R144): measure it, and suspend for the rest of the period; an overrun is counted and
goes on at once (R146). -/
def Scheduler.measure (h : Scheduler) (exact : Bool) (elapsed : Nat) : Scheduler :=
  { h with
    stage := if overrun exact h.hz elapsed then .boundary else .suspended
    overruns := h.overruns + if overrun exact h.hz elapsed then 1 else 0 }

/-- The end of the suspension (42_host_scheduler.md R144 step 4). -/
def Scheduler.wake (h : Scheduler) : Scheduler := { h with stage := .boundary }

/-- Steps 5 and 6 of a tick (42_host_scheduler.md R144), with whether a signal has set the flag since the last boundary. A stop before the
bound writes one diagnostic line in bounded mode (R147). -/
def Scheduler.endTick (h : Scheduler) (signalled : Bool) : Scheduler :=
  let reached := boundReached h.tickLimit (h.ticks + 1)
  let cancelled := h.cancel || signalled
  { h with
    ticks := h.ticks + 1
    stage := .start
    cancel := cancelled
    running := !reached && !cancelled
    diagnostics := h.diagnostics + if cancelled && !reached && h.tickLimit.isSome then 1 else 0 }

/-- The scheduler sees `fault == 1` and "stops for good" (42_host_scheduler.md R157, R154); that is an early exit, so in bounded
mode it writes the diagnostic line (R147). Log entry 23. -/
def Scheduler.stopOnFault (h : Scheduler) : Scheduler :=
  { h with running := false, diagnostics := h.diagnostics + if h.tickLimit.isSome then 1 else 0 }

/-- "always reports success regardless of early/abnormal stop" (42_host_scheduler.md R147). -/
def Scheduler.exitStatus (_ : Scheduler) : Nat := 0

/-- The operand values of one tick, a fresh draw per field (42_host_scheduler.md R142), numbered by the coming edge. -/
def drawnTick (n : Nat) : Line :=
  .tick (Config.drawX n) (Config.drawY n) (Config.drawTh n) (Config.drawCalib n) (Config.drawCommand n)

/-- The scheduler's move in IDLE with no line left, by the stage of its tick; none while it is suspended: then the block has the edge,
with `cmd_valid` 0. -/
def State.tickMove (s : State) (h : Scheduler) : Option State :=
  match h.stage with
  | .start => some { s with program := [drawnTick s.edge], sched := some { h with stage := .frames } }
  | .frames => some { s with sched := some (h.measure Config.exactPeriod (Config.elapsedMicros s.edge)) }
  | .suspended => if Config.sleepOver s.edge then some { s with sched := some h.wake } else none
  | .boundary => some { s with sched := some (h.endTick (Config.cancelSignal s.edge)) }

/-- The scheduler's own moves. In FAULT it stops and drops the lines left: no further command (42_host_scheduler.md R154). With its
lines run out and the block idle its tick goes on. Otherwise it waits, and the block has the edge. -/
def State.schedulerMove (s : State) : Option State :=
  match s.sched with
  | none => none
  | some h =>
    if h.running then
      if s.phase = .fault then some { s with program := [], sched := some h.stopOnFault }
      else if s.phase = .idle ∧ s.program = [] then s.tickMove h
      else none
    else none

end Sys2Proof.Machine
end

