-- ==== Sys2Proof/Machine/Fetch.lean ====
section
/-! DEFINITION. Which step the machine takes: the host's moves, what the block runs at an edge (41_frame_encoder.md R120), and how
an instruction is placed where the next step runs it. -/

namespace Sys2Proof.Machine

/-- What the host does before the coming edge, if anything. A host's move takes no clock edge. -/
inductive HostTurn where
  /-- The next line of the program is TICK and the block is idle: the host runs it. Log entry 12. -/
  | pseudo (i : Instr)
  /-- The scheduler moves. -/
  | moved (t : State)
  /-- Nothing: the edge comes. -/
  | wait
  deriving DecidableEq, Repr

/-- The host's turn (30_encoding.md R76, 42_host_scheduler.md R144). -/
def State.hostTurn (s : State) : HostTurn :=
  match s.program, s.phase with
  | .tick x y th calib command :: _, .idle => .pseudo (.tick x y th calib command)
  | _, _ =>
    match s.schedulerMove with
    | some t => .moved t
    | none => .wait

/-- What the block does at an edge without `rst` (41_frame_encoder.md R120). -/
inductive Fetched where
  /-- The step of this instruction. -/
  | instr (i : Instr)
  /-- HOLD (R127). -/
  | hold
  /-- A write is due in PAY at an index that has no register. Log entry 9. -/
  | noByte
  deriving DecidableEq, Repr

/-- The step selected by the phase and the inputs (41_frame_encoder.md R120): in IDLE the command at the port; in HDR, PAY and
CSUM, with the transport ready, the symbol due; otherwise HOLD. -/
def State.fetch (s : State) : Fetched :=
  match s.phase with
  | .idle => if s.levels.cmdValid then .instr (decodeCommand s.levels.cmd) else .hold
  | .fault => .hold
  | _ =>
    if s.levels.txReady then
      match s.due with
      | some i => .instr i
      | none => .noByte
    else .hold

/-- The host's line leaves its program when the command is accepted, or when TICK is expanded. Log entry 16. -/
def State.takeLine (s : State) : State :=
  if s.phase = .idle then { s with program := s.program.tail } else s

/-- The end of the edge, where the instruction's own step gave a next state. -/
def afterEdge : Host.Outcome State Fault Refusal → Host.Outcome State Fault Refusal
  | .next t => .next t.advance
  | .fault r => .fault r
  | .refused r => .refused r

/-! ### Placing an instruction -/

/-- The levels of an edge without reset, at a transport that is ready and does not fail. -/
def quietPins : Pins :=
  { rst := false, cmdValid := false, cmd := CmdWires.ofTag 0#3, txReady := true, txErr := false }

/-- The logical byte that the block holds when a symbol with this wire byte is due after its escape byte: the transform undone
for 0x5D and 0x5E, the byte itself for the two values that are never produced. -/
def untransformed (b : Byte) : Byte :=
  if collide (b ^^^ Config.escapeMask) then b ^^^ Config.escapeMask else b

/-- The sequencer put in front of the payload byte `b` of a one-byte payload. -/
def State.atByte (s : State) (b : Byte) (esc : Bool) : State :=
  { s with pb := .load [b], plen := 1, idx := 0, esc := esc, phase := .pay }

/-- An instruction placed so that the next step runs it: a host's line at the head of the program with the block idle; a wire
symbol by the phase in which it is due; the one who places is the host. Log entry 5. -/
def State.place (s : State) (i : Instr) : State :=
  let t : State := { s with pins := quietPins :: s.pins, sched := none, live := true }
  let held : State :=
    match lineOf i with
    | some l => { t with program := l :: s.program, phase := .idle }
    | none => t
  match i with
  | .vel _ _ _ => held
  | .rot _ => held
  | .kick _ => held
  | .bad3 => held
  | .badHigh _ => held
  | .hdr => { t with pb := .load [0], plen := 1, idx := 0, esc := false, phase := .hdr }
  | .esc => t.atByte Config.header false
  | .xval v => t.atByte (untransformed (xvalByte v)) true
  | .lit b => t.atByte b false
  | .tick _ _ _ _ _ => held

end Sys2Proof.Machine
end

