-- ==== Sys2Proof/Machine/Step.lean ====
section
/-! DEFINITION. One step: a move of the host, or one rising edge of the clock by the priorities of 41_frame_encoder.md R120. -/

namespace Sys2Proof.Machine

/-- One step. Before the first reset only a RESET edge has a meaning (70_reset_and_hazards.md R200). After it: the host's move if
it has one; else an edge, at which `rst` comes first, then the one enabled step, then HOLD (41_frame_encoder.md R120). -/
def step (s : State) : Host.Outcome State Fault Refusal :=
  if s.live then
    match s.hostTurn with
    | .pseudo i => exec i s.takeLine
    | .moved t => .next t
    | .wait =>
      if s.levels.rst then .next s.resetWrites.advance
      else
        match s.fetch with
        | .instr i => afterEdge (exec i s.takeLine)
        | .hold => .next s.advance
        | .noByte => .fault .noSuchPayloadByte
  else if s.rawPins.rst then .next s.resetWrites.advance
  else .refused .beforeFirstReset

/-- The state with the instruction of a table word placed where the next step runs it; a word that the decoder rejects is no
instruction, and nothing is placed. Log entries 5 and 13. -/
def State.withFetchWord (s : State) (nbits w : Nat) : State :=
  match decodeTableWord nbits w with
  | some i => s.place i
  | none => s

end Sys2Proof.Machine
end

