-- ==== Sys2Proof/Machine/Frame.lean ====
section
/-! DEFINITION. The frame function: what a payload becomes on the wire, as a pure function (41_frame_encoder.md R111 to R113).
The step machine does not call it; that the two agree is a statement (R128). -/

namespace Sys2Proof.Machine

/-- `stuff(b)`: an escaped pair or a literal (41_frame_encoder.md R111). -/
def stuff (b : Byte) : List Byte := if collide b then [Config.escape, xf b] else [b]

/-- The 8-bit wrapping sum of transmitted values on top of `seed` (41_frame_encoder.md R112, R114). -/
def sumFrom (seed : Byte) (p : List Byte) : Byte := p.foldl (fun a b => a + xf b) seed

/-- `csum(p)`, seeded with the header's literal value (41_frame_encoder.md R112). -/
def csum (p : List Byte) : Byte := sumFrom Config.header p

/-- `frame(p)`: the header, then every payload byte stuffed, then the checksum stuffed (41_frame_encoder.md R113). -/
def frame (p : List Byte) : List Byte := Config.header :: p.flatMap stuff ++ stuff (csum p)

/-- `E`: the number of escaped pairs of a frame (30_encoding.md R69, 41_frame_encoder.md R116 (a)). -/
def escapes (p : List Byte) : Nat := p.countP collide + if collide (csum p) then 1 else 0

end Sys2Proof.Machine
end

