-- ==== Sys2Proof/Safety.lean ====
section
/-! DEFINITION. The terms in which claims are stated: the invariant of 10_state.md R35, what is left of the frame in progress, a good
end of a run, what an observer at the ports sees, and a reader of the wire stream (the test bench's inverse; no decoder is part
of the block, 00_scope.md R4 (e)). -/

namespace Sys2Proof.Machine

/-- A frame is in progress: phase HDR, PAY or CSUM (10_state.md R35 (a)). -/
def State.inFrame (s : State) : Prop := s.phase = .hdr ∨ s.phase = .pay ∨ s.phase = .csum

/-- The payload of the command being framed: `pb[0..plen-1]`. -/
def State.payload (s : State) : List Byte := s.pb.toList.take s.plen.toNat

/-- The payload bytes whose transmitted value has been written: those before `idx` in PAY, all of them in CSUM
(10_state.md R35 (e)). -/
def State.summed (s : State) : List Byte :=
  match s.phase with
  | .pay => s.payload.take s.idx.toNat
  | .csum => s.payload
  | .idle => []
  | .hdr => []
  | .fault => []

/-- The invariant of 10_state.md R35, one field per letter, where "the accepted command" is the last one of the command stream. -/
structure Inv (s : State) : Prop where
  /-- R35 (a), the payload length. -/
  plenLegal : s.inFrame → s.plen = 1 ∨ s.plen = 2 ∨ s.plen = 5
  /-- R35 (a), the payload. -/
  packed : s.inFrame → ∃ i, s.accepted.getLast? = some i ∧ pack i = .ok s.payload
  /-- R35 (b). -/
  idxInside : s.phase = .pay → s.idx < s.plen
  /-- R35 (c). -/
  headerFresh : s.phase = .hdr → s.idx = 0 ∧ s.esc = false
  /-- R35 (d). -/
  escCollides : s.esc = true → ∀ b, s.currentByte = some b → collide b = true
  /-- R35 (e). -/
  accSums : s.phase = .pay ∨ s.phase = .csum → s.acc = csum s.summed
  /-- R35 (f). -/
  faultHasCode : s.phase = .fault ↔ s.fcode ≠ 0
  /-- R35 (g). -/
  codeProduced : s.fcode ≠ 3

/-- The wire bytes still to be written for the frame in progress, in order: the current byte without its escape byte if that has
been written, the later payload bytes stuffed, and the checksum stuffed (41_frame_encoder.md R113, R128). -/
def State.remaining (s : State) : List Byte :=
  match s.phase with
  | .hdr => frame s.payload
  | .pay =>
    ((s.payload.drop s.idx.toNat).flatMap stuff).drop (if s.esc then 1 else 0) ++ stuff (csum s.payload)
  | .csum => (stuff s.acc).drop (if s.esc then 1 else 0)
  | .idle => []
  | .fault => []

/-- The outputs at all ports (10_state.md R33). -/
structure Outputs where
  cmdReady  : Bool
  txValid   : Bool
  txData    : Byte
  busy      : Bool
  fault     : Bool
  faultCode : FaultCode
  deriving DecidableEq, Repr

/-- What the ports show (10_state.md R33). -/
def State.outputs (s : State) : Outputs where
  cmdReady := s.cmdReady
  txValid := s.txValid
  txData := s.txData
  busy := s.busy
  fault := s.faultOut
  faultCode := s.faultCode

/-- The valid commands: the rows VEL, ROT and KICK (30_encoding.md R71). -/
def validCommand : Instr → Bool
  | .vel _ _ _ => true
  | .rot _ => true
  | .kick _ => true
  | .bad3 => false
  | .badHigh _ => false
  | .hdr => false
  | .esc => false
  | .xval _ => false
  | .lit _ => false
  | .tick _ _ _ _ _ => false

/-- The wire frame of a command: none for an illegal tag (40_packer.md R94, 41_frame_encoder.md R113). -/
def frameOfCommand (i : Instr) : List Byte :=
  match pack i with
  | .ok p => frame p
  | .error _ => []

/-- The wire frame of the command at the port. -/
def frameOf (w : CmdWires) : List Byte := frameOfCommand (decodeCommand w)

/-- Since a point at which the command stream was `a` and the wire stream `w`: the bytes written, with those still to be written for the
frame in progress, are the concatenation of one frame per command accepted, in order (20_memory.md R49 (a)). -/
def State.framedSince (a : List Instr) (w : List Byte) (s : State) : Prop :=
  ∃ cs, s.accepted = a ++ cs ∧ s.wire ++ s.remaining = w ++ cs.flatMap frameOfCommand

/-- A line that DOC0's scheduler may put on the port: TICK, or a command whose tag is 0, 1 or 2 (42_host_scheduler.md R157). -/
def hostMayOffer : Line → Prop
  | .command w => w.dtype = 0#3 ∨ w.dtype = 1#3 ∨ w.dtype = 2#3
  | .tick _ _ _ _ _ => True

/-! ### A reader of the wire stream -/

/-- Undoing the stuffing (30_encoding.md R70): each pair `7E v` becomes `v ^ 0x20`; what the block never produces is refused
(93_implementation_defined.md U17). -/
def unstuff : List Byte → Option (List Byte)
  | [] => some []
  | [b] => if collide b then none else some [b]
  | b :: v :: rest =>
    if b = Config.header then none
    else if b = Config.escape then
      if v = 0x5D#8 ∨ v = 0x5E#8 then (unstuff rest).map ((v ^^^ Config.escapeMask) :: ·) else none
    else (unstuff (v :: rest)).map (b :: ·)

/-- A frame read back: the header, the logical payload and the checksum that its transmitted bytes sum to, and the fields of
the payload (30_encoding.md R66, R70; 95_test_vectors.md P1, P3). -/
def readFrame : List Byte → Option Instr
  | [] => none
  | h :: rest =>
    if h = Config.header then
      match unstuff rest with
      | none => none
      | some logical =>
        if logical.getLast? = some (csum logical.dropLast) then (decodePayload logical.dropLast).toOption else none
    else none

/-! ### Runs -/

/-- A run of `n` steps of the machine, up to the first stop (the host's `Core.run` on this machine). -/
def runFor : Nat → State → Host.Outcome State Fault Refusal
  | 0, s => .next s
  | n + 1, s =>
    match step s with
    | .next t => runFor n t
    | .fault r => .fault r
    | .refused r => .refused r

/-- Levels at which nothing goes wrong: no reset, and no failed write (41_frame_encoder.md R128, "every later write succeeds");
`tx_err` without `tx_ready` is ignored (60_exceptions.md R177). -/
def undisturbed (p : Pins) : Bool := !p.rst && !(p.txReady && p.txErr)

/-- An ordinary clock edge comes next: the block has been reset, the host has no move of its own, and `rst` is 0. -/
def State.ordinaryEdge (s : State) : Prop := s.live = true ∧ s.hostTurn = .wait ∧ s.levels.rst = false

/-- The transport takes the offered byte at the coming edge, and the write succeeds (20_memory.md R43). -/
def State.writeSucceeds (s : State) : Prop := s.levels.txReady = true ∧ s.levels.txErr = false

/-- The transport answers the offered byte at the coming edge with an error (20_memory.md R43). -/
def State.writeFails (s : State) : Prop := s.levels.txReady = true ∧ s.levels.txErr = true

/-- The coming step is the RESET step (70_reset_and_hazards.md R200). -/
def State.resetEdge (s : State) : Prop :=
  (s.live = false ∧ s.rawPins.rst = true) ∨ (s.live = true ∧ s.hostTurn = .wait ∧ s.levels.rst = true)

/-- The coming edge is one of a failed write (20_memory.md R43). -/
def State.failedWrite (s : State) : Prop := s.txValid = true ∧ s.writeFails

/-- The steps of one run after its RESET step: any number of steps, none of which is RESET, which would start a new run
(70_reset_and_hazards.md R213). -/
inductive RunTo (s : State) : State → Prop where
  | here : RunTo s s
  | step {t u : State} (before : RunTo s t) (noReset : ¬ t.resetEdge) (next : Machine.step t = .next u) : RunTo s u

/-- A run has ended well at an edge from which on `phase == IDLE` and `fcode == 0` hold and the host never asserts `cmd_valid` again
(70_reset_and_hazards.md R213). -/
def State.endedWell (s : State) : Prop :=
  ∀ (n : Nat) (t : State), runFor n s = .next t → t.phase = .idle ∧ t.fcode = 0 ∧ t.levels.cmdValid = false

/-- Two states in which the block and both streams are the same, whatever the environments. -/
structure SameBlock (s t : State) : Prop where
  pb : s.pb = t.pb
  plen : s.plen = t.plen
  phase : s.phase = t.phase
  idx : s.idx = t.idx
  esc : s.esc = t.esc
  acc : s.acc = t.acc
  fcode : s.fcode = t.fcode
  wire : s.wire = t.wire
  accepted : s.accepted = t.accepted

/-- The two states differ at most in the four elements that reset leaves unspecified (10_state.md R34). -/
def DifferInUnspecified (s t : State) : Prop :=
  t = { s with pb := t.pb, plen := t.plen, idx := t.idx, acc := t.acc }

/-- What an observer of the ports and the two streams sees of an outcome. -/
def observe : Host.Outcome State Fault Refusal → Host.Outcome (Outputs × List Byte × List Instr) Fault Refusal
  | .next s => .next (s.outputs, s.wire, s.accepted)
  | .fault r => .fault r
  | .refused r => .refused r

/-- The number of edges of a script at which the transport is ready. -/
def readyEdges (ps : List Pins) : Nat := ps.countP (·.txReady)

end Sys2Proof.Machine
end

