-- ==== Sys2Proof/Certificates/Slice0/Obligations.lean ====
section
/-! DEFINITION. The statements for the provers. Each docstring names the rule of spec/ it formalises; OBLIGATIONS.json holds the
quotations. A hypothesis is about the state, the levels and the operands alone. -/

open Sys2Proof Sys2Proof.Machine

/-! ### Reset and the reset state -/

/-- 10_state.md R35 at 10_state.md R34's state. -/
def Obligations.ResetSatisfiesInvariant : Prop :=
  Inv State.reset ∧ State.reset.live = true

/-- 70_reset_and_hazards.md R200, whole: the three writes of RESET and nothing else, whatever the phase and the other inputs, at a
reset edge of a running block and at the first one after power-up, where every element is arbitrary. (That any other step before
it is refused is the model's own, log entry 2: StepStopsExactlyWhen.) -/
def Obligations.ResetWritesThreeElements : Prop :=
  (∀ s : State, s.live = true → s.hostTurn = .wait → s.levels.rst = true →
    step s = .next { s with phase := .idle, esc := false, fcode := 0, pins := s.pins.tail, edge := s.edge + 1 }) ∧
  (∀ s : State, s.live = false → s.rawPins.rst = true →
    step s = .next { s with phase := .idle, esc := false, fcode := 0, live := true, pins := s.pins.tail, edge := s.edge + 1 })

/-- 70_reset_and_hazards.md R201: the ports after a reset edge, and that the block then waits in IDLE for a command. -/
def Obligations.PortsAfterReset : Prop :=
  ∀ s : State, (s.live = false ∧ s.rawPins.rst = true) ∨ (s.live = true ∧ s.hostTurn = .wait ∧ s.levels.rst = true) →
    ∃ t, step s = .next t ∧ t.cmdReady = true ∧ t.txValid = false ∧ t.busy = false ∧ t.faultOut = false ∧ t.faultCode = 0 ∧
      (t.ordinaryEdge → t.levels.cmdValid = false → ∃ u, step t = .next u ∧ SameBlock t u ∧ u.cmdReady = true)

/-- 10_state.md R33, whole: the outputs by the phase, and no output depends on an input of the same cycle. -/
def Obligations.OutputsFollowTheState : Prop :=
  ∀ s : State,
    (s.cmdReady = true ↔ s.phase = .idle) ∧
    (s.txValid = true ↔ s.phase = .hdr ∨ s.phase = .pay ∨ s.phase = .csum) ∧
    (s.busy = true ↔ s.phase = .hdr ∨ s.phase = .pay ∨ s.phase = .csum) ∧
    (s.faultOut = true ↔ s.phase = .fault) ∧
    s.faultCode = s.fcode ∧
    ¬ (s.cmdReady = true ∧ s.txValid = true) ∧
    (s.phase = .hdr → s.txData = 0x7D#8) ∧
    (∀ b, s.phase = .pay → s.pb.get s.idx = some b → collide b = true → s.esc = false → s.txData = 0x7E#8) ∧
    (∀ b, s.phase = .pay → s.pb.get s.idx = some b → ¬ (collide b = true ∧ s.esc = false) → s.txData = xf b) ∧
    (s.phase = .csum → collide s.acc = true → s.esc = false → s.txData = 0x7E#8) ∧
    (s.phase = .csum → ¬ (collide s.acc = true ∧ s.esc = false) → s.txData = xf s.acc) ∧
    (∀ pins program sched, State.outputs { s with pins := pins, program := program, sched := sched } = s.outputs)

/-! ### A step runs the decoded instruction -/

/-- 41_frame_encoder.md R120: a step is `exec` of the instruction decoded at the command port (the command then leaves the
host's program), of the symbol decoded from the offered byte at its place, or of the host's TICK line; the edge ends after the
first two. -/
def Obligations.StepRunsDecodedInstruction : Prop :=
  (∀ (s : State) (i : Instr), s.ordinaryEdge → s.phase = .idle → s.levels.cmdValid = true →
    decode (.line (.command s.levels.cmd)) = .ok i →
      step s = afterEdge (exec i { s with program := s.program.tail })) ∧
  (∀ (s : State) (b : Byte) (i : Instr), s.ordinaryEdge → s.phase = .hdr ∨ s.phase = .pay ∨ s.phase = .csum →
    s.levels.txReady = true → s.wireByte = some b → decode (.symbol s.wirePos b) = .ok i →
      step s = afterEdge (exec i s)) ∧
  (∀ (s : State) (l : Line) (rest : List Line) (x y th : BitVec 12) (calib : BitVec 13) (command : BitVec 5),
    s.live = true → s.phase = .idle → s.program = l :: rest → decode (.line l) = .ok (.tick x y th calib command) →
      step s = exec (.tick x y th calib command) { s with program := rest })

/-- Words written out from the layout tables (30_encoding.md R61 to R63, R68, R71, R77) decode to the instructions they stand for. -/
def Obligations.SpecWordsDecode : Prop :=
  decode (.payload [0x1F, 0xFE, 0x00, 0x00, 0x00]) = .ok (.vel 4095 0 0) ∧
  decode (.payload [0x15, 0x78, 0x24, 0x64, 0x56]) = .ok (.vel 0xABC 0x123 0x456) ∧
  decode (.payload [0x32, 0x34]) = .ok (.rot 0x1234) ∧
  decode (.payload [0x5F]) = .ok (.kick 31) ∧
  decode (.line (.command { dtype := 3, x := 0, y := 0, th := 0, calib := 0, command := 0 })) = .ok .bad3 ∧
  decode (.line (.command { dtype := 7, x := 4095, y := 0, th := 0, calib := 8191, command := 31 })) = .ok (.badHigh 3) ∧
  decode (.symbol .frameStart 0x7D) = .ok .hdr ∧
  decode (.symbol .inFrame 0x7E) = .ok .esc ∧
  decode (.symbol .afterEscape 0x5E) = .ok (.xval 2) ∧
  decode (.symbol .inFrame 0x5E) = .ok (.lit 0x5E)

/-! ### The commands -/

/-- 40_packer.md R91, whole: both columns of its pseudocode, and the command runs (41_frame_encoder.md R121). -/
def Obligations.VelPacksAndIsAccepted : Prop :=
  ∀ x y th : BitVec 12,
    pack (.vel x y th) = .ok
      [0b000#3 ++ x.extractLsb' 7 5, x.extractLsb' 0 7 ++ y.extractLsb' 11 1, y.extractLsb' 3 8,
        y.extractLsb' 0 3 ++ 0b0#1 ++ th.extractLsb' 8 4, th.extractLsb' 0 8] ∧
    (0b000#3 ++ x.extractLsb' 7 5).toNat = ((0 <<< 5) ||| (x.toNat >>> 7)) % 256 ∧
    (x.extractLsb' 0 7 ++ y.extractLsb' 11 1).toNat = (((x.toNat &&& 0x7F) <<< 1) ||| (y.toNat >>> 11)) % 256 ∧
    (y.extractLsb' 3 8).toNat = (y.toNat >>> 3) &&& 0xFF ∧
    (y.extractLsb' 0 3 ++ 0b0#1 ++ th.extractLsb' 8 4).toNat = (((y.toNat &&& 0x3F) <<< 5) ||| (th.toNat >>> 8)) % 256 ∧
    (th.extractLsb' 0 8).toNat = th.toNat &&& 0xFF ∧
    ∀ s : State, s.phase = .idle →
      exec (.vel x y th) s = .next { s with
        pb := { b0 := 0b000#3 ++ x.extractLsb' 7 5, b1 := x.extractLsb' 0 7 ++ y.extractLsb' 11 1, b2 := y.extractLsb' 3 8,
                b3 := y.extractLsb' 0 3 ++ 0b0#1 ++ th.extractLsb' 8 4, b4 := th.extractLsb' 0 8 }
        plen := 5, idx := 0, esc := false, phase := .hdr, accepted := s.accepted ++ [.vel x y th] }

/-- 40_packer.md R92, whole, and the command runs (41_frame_encoder.md R121). -/
def Obligations.RotPacksAndIsAccepted : Prop :=
  ∀ calib : BitVec 13,
    pack (.rot calib) = .ok [0b001#3 ++ calib.extractLsb' 8 5, calib.extractLsb' 0 8] ∧
    (0b001#3 ++ calib.extractLsb' 8 5).toNat = ((1 <<< 5) ||| (calib.toNat >>> 8)) % 256 ∧
    (calib.extractLsb' 0 8).toNat = calib.toNat &&& 0xFF ∧
    ∀ s : State, s.phase = .idle →
      exec (.rot calib) s = .next { s with
        pb := { b0 := 0b001#3 ++ calib.extractLsb' 8 5, b1 := calib.extractLsb' 0 8, b2 := 0, b3 := 0, b4 := 0 }
        plen := 2, idx := 0, esc := false, phase := .hdr, accepted := s.accepted ++ [.rot calib] }

/-- 40_packer.md R93, whole, and the command runs (41_frame_encoder.md R121). -/
def Obligations.KickPacksAndIsAccepted : Prop :=
  ∀ command : BitVec 5,
    pack (.kick command) = .ok [0b010#3 ++ command] ∧
    (0b010#3 ++ command).toNat = ((2 <<< 5) ||| command.toNat) % 256 ∧
    ∀ s : State, s.phase = .idle →
      exec (.kick command) s = .next { s with
        pb := { b0 := 0b010#3 ++ command, b1 := 0, b2 := 0, b3 := 0, b4 := 0 }
        plen := 1, idx := 0, esc := false, phase := .hdr, accepted := s.accepted ++ [.kick command] }

/-- 40_packer.md R94, whole: all five illegal tags raise InvalidDatatype at the accept edge, the operand ports are ignored, no byte
is written, and the command is consumed. -/
def Obligations.BadTagsTakeInvalidDatatype : Prop :=
  (∀ s : State, s.phase = .idle →
    exec .bad3 s = .next { s with phase := .fault, fcode := 1, accepted := s.accepted ++ [.bad3] }) ∧
  (∀ (s : State) (g : BitVec 2), s.phase = .idle →
    exec (.badHigh g) s = .next { s with phase := .fault, fcode := 1, accepted := s.accepted ++ [.badHigh g] }) ∧
  (∀ w : CmdWires, 3#3 ≤ w.dtype →
    pack (decodeCommand w) = .error (.invalidDatatype w.dtype) ∧
    decodeCommand w = decodeCommand (CmdWires.ofTag w.dtype) ∧
    ∀ s : State, s.phase = .idle →
      exec (decodeCommand w) s = .next { s with
        phase := .fault, fcode := 1, accepted := s.accepted ++ [decodeCommand w] })

/-- 41_frame_encoder.md R121, whole: what the ACCEPT edge does with the wires at the command port. -/
def Obligations.AcceptLoadsTheCommandAtThePort : Prop :=
  ∀ s : State, s.ordinaryEdge → s.phase = .idle → s.levels.cmdValid = true →
    (s.levels.cmd.dtype = 0#3 ∨ s.levels.cmd.dtype = 1#3 ∨ s.levels.cmd.dtype = 2#3 →
      ∃ p t, pack (decodeCommand s.levels.cmd) = .ok p ∧ step s = .next t ∧
        (s.levels.cmd.dtype = 0#3 → t.plen = 5) ∧ (s.levels.cmd.dtype = 1#3 → t.plen = 2) ∧
        (s.levels.cmd.dtype = 2#3 → t.plen = 1) ∧ t.plen.toNat = p.length ∧
        (∀ k : BitVec 3, k < 5 → t.pb.get k = some (p.getD k.toNat 0)) ∧
        t.idx = 0 ∧ t.esc = false ∧ t.phase = .hdr ∧ t.acc = s.acc ∧ t.fcode = s.fcode ∧ t.wire = s.wire ∧
        t.accepted = s.accepted ++ [decodeCommand s.levels.cmd] ∧ t.program = s.program.tail ∧ t.cmdReady = false) ∧
    (3#3 ≤ s.levels.cmd.dtype →
      step s = .next { s with
        phase := .fault, fcode := 1, accepted := s.accepted ++ [decodeCommand s.levels.cmd], program := s.program.tail,
        pins := s.pins.tail, edge := s.edge + 1 })

/-- 10_state.md R30: the operand ports that the tag does not use are ignored. -/
def Obligations.UnusedOperandPortsAreIgnored : Prop :=
  ∀ v w : CmdWires, v.dtype = w.dtype →
    (v.dtype = 0#3 → v.x = w.x → v.y = w.y → v.th = w.th → decodeCommand v = decodeCommand w) ∧
    (v.dtype = 1#3 → v.calib = w.calib → decodeCommand v = decodeCommand w) ∧
    (v.dtype = 2#3 → v.command = w.command → decodeCommand v = decodeCommand w) ∧
    (3#3 ≤ v.dtype → decodeCommand v = decodeCommand w)

/-- 60_exceptions.md R177: `cmd_valid` while `phase != IDLE` is ignored. For a wire symbol that is not the one due, or at a
transport that is not ready, that nothing changes is the MODEL's choice (log entry 10). -/
def Obligations.NotEnabledChangesNothing : Prop :=
  (∀ (s : State) (x y th : BitVec 12) (calib : BitVec 13) (command : BitVec 5) (g : BitVec 2), s.phase ≠ .idle →
    exec (.vel x y th) s = .next s ∧ exec (.rot calib) s = .next s ∧ exec (.kick command) s = .next s ∧
    exec .bad3 s = .next s ∧ exec (.badHigh g) s = .next s) ∧
  (∀ (s : State) (i : Instr), i = .hdr ∨ i = .esc ∨ (∃ v, i = .xval v) ∨ (∃ b, i = .lit b) →
    s.due ≠ some i ∨ s.levels.txReady = false → exec i s = .next s)

/-- The frame of the commands (41_frame_encoder.md R121, 60_exceptions.md R174): what an accepted command leaves unchanged. -/
def Obligations.CommandFrame : Prop :=
  (∀ (s t : State) (i : Instr), (∃ w, i = decodeCommand w) → exec i s = .next t →
    t.acc = s.acc ∧ t.wire = s.wire ∧ t.pins = s.pins ∧ t.program = s.program ∧ t.sched = s.sched ∧ t.edge = s.edge ∧
    t.live = s.live ∧ (t.accepted = s.accepted ∨ t.accepted = s.accepted ++ [i])) ∧
  (∀ (s t : State) (i : Instr), validCommand i = true → exec i s = .next t → t.fcode = s.fcode) ∧
  (∀ (s t : State) (i : Instr), i = .bad3 ∨ (∃ g, i = .badHigh g) → exec i s = .next t →
    t.pb = s.pb ∧ t.plen = s.plen ∧ t.idx = s.idx ∧ t.esc = s.esc)

/-! ### The writing steps -/

/-- 41_frame_encoder.md R122, whole: step HDR, as the meaning of the header symbol and as the step of the machine. -/
def Obligations.HdrWritesHeaderAndSeeds : Prop :=
  (∀ s : State, s.phase = .hdr → s.writeSucceeds →
    exec .hdr s = .next { s with
      acc := 0x7D#8, phase := if s.plen ≠ 0 then .pay else .csum, wire := s.wire ++ [0x7D#8] }) ∧
  (∀ s : State, s.ordinaryEdge → s.phase = .hdr → s.writeSucceeds →
    step s = .next { s with
      acc := 0x7D#8, phase := if s.plen ≠ 0 then .pay else .csum, wire := s.wire ++ [0x7D#8],
      pins := s.pins.tail, edge := s.edge + 1 })

/-- 41_frame_encoder.md R123 and R125, whole: steps PAYB-ESC and CSB-ESC, as the meaning of the escape symbol and as the step of the
machine. -/
def Obligations.EscWritesEscapeOnly : Prop :=
  (∀ (s : State) (b : Byte), s.phase = .pay → s.pb.get s.idx = some b → collide b = true → s.esc = false → s.writeSucceeds →
    exec .esc s = .next { s with esc := true, wire := s.wire ++ [0x7E#8] }) ∧
  (∀ s : State, s.phase = .csum → collide s.acc = true → s.esc = false → s.writeSucceeds →
    exec .esc s = .next { s with esc := true, wire := s.wire ++ [0x7E#8] }) ∧
  (∀ (s : State) (b : Byte), s.ordinaryEdge → (s.phase = .pay ∧ s.pb.get s.idx = some b) ∨ (s.phase = .csum ∧ s.acc = b) →
    collide b = true → s.esc = false → s.writeSucceeds →
    step s = .next { s with esc := true, wire := s.wire ++ [0x7E#8], pins := s.pins.tail, edge := s.edge + 1 })

/-- 41_frame_encoder.md R124: step PAYB-VAL, as the meaning of LIT, as the meaning of XVAL (after the escape byte), and as the
step of the machine in every case the rule's condition names. The clauses also hold in states that no run reaches, where `esc` is 1
before a byte that does not collide (10_state.md R35 (d)); which symbol such a byte is, is log entry 11. -/
def Obligations.PayloadValueIsWrittenAndSummed : Prop :=
  (∀ (s : State) (b : Byte), s.phase = .pay → s.pb.get s.idx = some b →
    (s.esc = false ∧ collide b = false) ∨ (s.esc = true ∧ (xf b).extractLsb' 2 6 ≠ 0b010111#6) → s.writeSucceeds →
    exec (.lit (xf b)) s = .next { s with
      acc := s.acc + xf b, esc := false, idx := s.idx + 1, phase := if s.idx + 1 = s.plen then .csum else .pay,
      wire := s.wire ++ [xf b] }) ∧
  (∀ (s : State) (b : Byte) (v : BitVec 2), s.phase = .pay → s.pb.get s.idx = some b → s.esc = true → xf b = 0b010111#6 ++ v →
    s.writeSucceeds →
    exec (.xval v) s = .next { s with
      acc := s.acc + xf b, esc := false, idx := s.idx + 1, phase := if s.idx + 1 = s.plen then .csum else .pay,
      wire := s.wire ++ [xf b] }) ∧
  (∀ (s : State) (b : Byte), s.ordinaryEdge → s.phase = .pay → s.pb.get s.idx = some b → collide b = false ∨ s.esc = true →
    s.writeSucceeds →
    step s = .next { s with
      acc := s.acc + xf b, esc := false, idx := s.idx + 1, phase := if s.idx + 1 = s.plen then .csum else .pay,
      wire := s.wire ++ [xf b], pins := s.pins.tail, edge := s.edge + 1 })

/-- 41_frame_encoder.md R126: step CSB-VAL, in the same three forms; in states that no run reaches, where `esc` is 1 before a checksum
that does not collide, which symbol that byte is, is log entry 11. -/
def Obligations.ChecksumValueEndsTheFrame : Prop :=
  (∀ s : State, s.phase = .csum →
    (s.esc = false ∧ collide s.acc = false) ∨ (s.esc = true ∧ (xf s.acc).extractLsb' 2 6 ≠ 0b010111#6) → s.writeSucceeds →
    exec (.lit (xf s.acc)) s = .next { s with esc := false, phase := .idle, wire := s.wire ++ [xf s.acc] }) ∧
  (∀ (s : State) (v : BitVec 2), s.phase = .csum → s.esc = true → xf s.acc = 0b010111#6 ++ v → s.writeSucceeds →
    exec (.xval v) s = .next { s with esc := false, phase := .idle, wire := s.wire ++ [xf s.acc] }) ∧
  (∀ s : State, s.ordinaryEdge → s.phase = .csum → collide s.acc = false ∨ s.esc = true → s.writeSucceeds →
    ∃ t, step s = .next t ∧ t.cmdReady = true ∧
      t = { s with
        esc := false, phase := .idle, wire := s.wire ++ [xf s.acc], pins := s.pins.tail, edge := s.edge + 1 })

/-- 41_frame_encoder.md R127, whole: HOLD in IDLE without a command, under backpressure, and in FAULT. -/
def Obligations.HoldChangesNoElement : Prop :=
  ∀ s : State, s.ordinaryEdge →
    (s.phase = .idle ∧ s.levels.cmdValid = false) ∨
    ((s.phase = .hdr ∨ s.phase = .pay ∨ s.phase = .csum) ∧ s.levels.txReady = false) ∨ s.phase = .fault →
      step s = .next { s with pins := s.pins.tail, edge := s.edge + 1 }

/-- 10_state.md R31: under backpressure of any length, whatever `tx_err` is at these edges (60_exceptions.md R177), the block waits
with `tx_valid` and `tx_data` unchanged, and writes nothing. -/
def Obligations.BackpressureKeepsTheOfferedByte : Prop :=
  ∀ (s : State) (b : Byte) (qs rest : List Pins), s.live = true → s.phase = .hdr ∨ s.phase = .pay ∨ s.phase = .csum →
    s.wireByte = some b → s.pins = qs ++ rest → (∀ q ∈ qs, q.rst = false ∧ q.txReady = false) →
      ∃ t, runFor qs.length s = .next t ∧ SameBlock s t ∧ t.txValid = true ∧ t.txData = b ∧ t.program = s.program

/-- The frame of the wire symbols (41_frame_encoder.md R122 to R126, 60_exceptions.md R175), whatever the transport answers. -/
def Obligations.SymbolFrame : Prop :=
  ∀ (s t : State) (i : Instr), i = .hdr ∨ i = .esc ∨ (∃ v, i = .xval v) ∨ (∃ b, i = .lit b) → exec i s = .next t →
    t.pb = s.pb ∧ t.plen = s.plen ∧ t.accepted = s.accepted ∧ t.pins = s.pins ∧ t.program = s.program ∧ t.sched = s.sched ∧
    t.edge = s.edge ∧ t.live = s.live ∧
    (t.wire = s.wire ∨ ∃ b, s.wireByte = some b ∧ t.wire = s.wire ++ [b]) ∧
    (s.levels.txErr = false → t.fcode = s.fcode) ∧
    (i = .esc → t.acc = s.acc ∧ t.idx = s.idx) ∧
    (i = .hdr → t.idx = s.idx ∧ t.esc = s.esc) ∧
    (s.phase = .csum → t.acc = s.acc ∧ t.idx = s.idx)

/-- 30_encoding.md R76: TICK expands to VEL, ROT, KICK in that order, and the block does not see it. -/
def Obligations.TickExpandsToThreeLines : Prop :=
  ∀ (s : State) (x y th : BitVec 12) (calib : BitVec 13) (command : BitVec 5), ∃ l1 l2 l3,
    decode (.line l1) = .ok (.vel x y th) ∧ decode (.line l2) = .ok (.rot calib) ∧ decode (.line l3) = .ok (.kick command) ∧
    exec (.tick x y th calib command) s = .next { s with program := l1 :: l2 :: l3 :: s.program }

/-! ### Faults -/

/-- 60_exceptions.md R175: the entry on a failed write of the symbol due, whatever symbol it is; whether the byte reached the wire
is open, so both wire streams are allowed. -/
def Obligations.FailedWriteTakesTheFault : Prop :=
  ∀ (s : State) (i : Instr), s.due = some i → s.writeFails →
    ∃ t, exec i s = .next t ∧ t = { s with phase := .fault, fcode := 2, wire := t.wire } ∧
      (t.wire = s.wire ∨ t.wire = s.wire ++ [s.txData])

/-- 60_exceptions.md R178, whole: in FAULT nothing is accepted or written and the block holds until `rst`, which leaves it; and the code
is written at most once between resets. -/
def Obligations.FaultIsStickyUntilReset : Prop :=
  (∀ s : State, s.phase = .fault → s.cmdReady = false ∧ s.txValid = false ∧ s.faultOut = true) ∧
  (∀ s t : State, s.live = true → s.phase = .fault → step s = .next t →
    (s.levels.rst = false → SameBlock s t ∧ t.faultOut = true ∧ t.faultCode = s.faultCode) ∧
    (s.levels.rst = true → t.phase = .idle ∧ t.fcode = 0 ∧ t.wire = s.wire ∧ t.accepted = s.accepted)) ∧
  (∀ s t : State, Inv s → s.live = true → s.levels.rst = false → step s = .next t → s.fcode ≠ 0 → t.fcode = s.fcode)

/-- When a step of the model stops, and that it stops only then (log entries 2 and 9). -/
def Obligations.StepStopsExactlyWhen : Prop :=
  (∀ (s : State) (r : Fault), step s = .fault r ↔
    s.ordinaryEdge ∧ s.phase = .pay ∧ s.levels.txReady = true ∧ 5#3 ≤ s.idx ∧ r = .noSuchPayloadByte) ∧
  (∀ (s : State) (r : Refusal), step s = .refused r ↔
    s.live = false ∧ s.rawPins.rst = false ∧ r = .beforeFirstReset)

/-! ### Invariants and whole-machine rules -/

/-- 10_state.md R35: reset has the invariant and every step of the machine, whatever the host and the transport do, keeps it. -/
def Obligations.StepKeepsInvariant : Prop :=
  Inv State.reset ∧ ∀ s t : State, Inv s → step s = .next t → Inv t

/-- From the invariant no step stops: the block has a step at every edge (41_frame_encoder.md R120). -/
def Obligations.InvariantStatesAlwaysStep : Prop :=
  ∀ s : State, Inv s → s.live = true → ∃ t, step s = .next t ∧ t.live = true

/-- 41_frame_encoder.md R118: the phases follow one fixed cycle, with the one exit to FAULT. -/
def Obligations.PhasesFollowTheCycle : Prop :=
  ∀ s t : State, s.ordinaryEdge → step s = .next t → t.phase ≠ s.phase →
    (s.phase = .idle ∧ t.phase = .hdr ∧ s.levels.cmdValid = true) ∨
    (s.phase = .idle ∧ t.phase = .fault ∧ t.fcode = 1) ∨
    (s.phase = .hdr ∧ t.phase = .pay ∧ s.plen ≠ 0) ∨
    (s.phase = .hdr ∧ t.phase = .csum ∧ s.plen = 0) ∨
    (s.phase = .pay ∧ t.phase = .csum ∧ s.idx + 1 = s.plen) ∨
    (s.phase = .csum ∧ t.phase = .idle) ∨
    (s.txValid = true ∧ t.phase = .fault ∧ t.fcode = 2)

/-- 20_memory.md R43, R47: a step puts at most one byte on the wire, and that byte is `tx_data` at an edge with `tx_valid`,
`tx_ready` and no `rst`. -/
def Obligations.StepWritesAtMostTxData : Prop :=
  ∀ s t : State, step s = .next t →
    t.wire = s.wire ∨
    (s.txValid = true ∧ s.levels.txReady = true ∧ s.levels.rst = false ∧ t.wire = s.wire ++ [s.txData])

/-- 10_state.md R30, 20_memory.md R49 (b): a command is accepted at an edge with `cmd_valid`, `cmd_ready` and no `rst`, and then no
byte is written; no command is accepted while a frame is in progress. -/
def Obligations.CommandsAreAcceptedOnlyWhenReady : Prop :=
  ∀ s t : State, step s = .next t →
    t.accepted = s.accepted ∨
    (s.cmdReady = true ∧ s.levels.cmdValid = true ∧ s.levels.rst = false ∧ t.wire = s.wire ∧
      t.accepted = s.accepted ++ [decodeCommand s.levels.cmd])

/-- 20_memory.md R51: while a frame is in progress the command port is not looked at. -/
def Obligations.BusyBlockIgnoresTheCommandPort : Prop :=
  ∀ s t u : State, s.phase ≠ .idle → s.live = true →
    t = { s with pins := t.pins, program := t.program } →
    t.levels.rst = s.levels.rst → t.levels.txReady = s.levels.txReady → t.levels.txErr = s.levels.txErr →
    step s = .next u → ∃ v, step t = .next v ∧ SameBlock u v

/-- 10_state.md R36: the four elements that reset leaves unspecified are never observable: two machines that differ only in them,
in IDLE, show the same at every port and on both streams for ever, in the same environment. -/
def Obligations.UnspecifiedElementsAreNeverObserved : Prop :=
  ∀ s t : State, s.phase = .idle → DifferInUnspecified s t →
    ∀ n : Nat, observe (runFor n s) = observe (runFor n t)

/-- 70_reset_and_hazards.md R213: nothing is pending inside the block at a good end: from there on, whatever the transport does, nothing
is accepted or written, and an edge without `rst` leaves the block as it is. -/
def Obligations.GoodEndIsQuiescent : Prop :=
  (∀ (s t : State) (n : Nat), s.endedWell → runFor n s = .next t →
    t.endedWell ∧ t.cmdReady = true ∧ t.wire = s.wire ∧ t.accepted = s.accepted) ∧
  (∀ s : State, s.phase = .idle → s.ordinaryEdge → s.levels.cmdValid = false →
    ∃ t, step s = .next t ∧ SameBlock s t ∧ t.program = s.program)

/-- 70_reset_and_hazards.md R213: in a run that has ended well the wire stream is the concatenation of one complete frame per accepted
command, in order, behind what was on the wire before the run. A later RESET step starts a new run. -/
def Obligations.WellEndedRunIsOneFramePerCommand : Prop :=
  ∀ s r t : State, s.resetEdge → step s = .next r → RunTo r t → t.endedWell →
    ∃ cs, t.accepted = s.accepted ++ cs ∧ (∀ c ∈ cs, validCommand c = true) ∧ t.wire = s.wire ++ cs.flatMap frameOfCommand

/-! ### The frame function and the step machine -/

/-- 41_frame_encoder.md R111: a transmitted value never collides, its only changed outputs are 0x5D and 0x5E, `xf` is not injective
and `stuff` is. -/
def Obligations.TransformAndStuffing : Prop :=
  (∀ b : Byte, collide b = true ↔ b = 0x7D#8 ∨ b = 0x7E#8) ∧
  (∀ b : Byte, collide b = true → xf b = b ^^^ 0x20#8 ∧ stuff b = [0x7E#8, xf b]) ∧
  (∀ b : Byte, collide b = false → xf b = b ∧ stuff b = [b]) ∧
  (∀ b : Byte, collide (xf b) = false) ∧
  (∀ b : Byte, xf b ≠ b → xf b = 0x5D#8 ∨ xf b = 0x5E#8) ∧
  xf 0x5D#8 = xf 0x7D#8 ∧
  (∀ b c : Byte, stuff b = stuff c → b = c)

/-- 41_frame_encoder.md R112 and 10_state.md R26: the 8-bit wrapping accumulator holds the sum of the transmitted values over the
header's literal value, reduced modulo 256 once at the end. -/
def Obligations.ChecksumIsTheSumModulo256 : Prop :=
  (∀ p : List Byte, (csum p).toNat = (0x7D + (p.map fun b => (xf b).toNat).sum) % 256) ∧ csum [] = 0x7D#8

/-- 41_frame_encoder.md R116 (a) to (d): length, header, escape bytes, and that the frame determines the payload. -/
def Obligations.FrameIsDelimitedAndReadable : Prop :=
  ∀ p : List Byte,
    (frame p).length = p.length + 2 + escapes p ∧ p.length + 2 ≤ (frame p).length ∧ (frame p).length ≤ 2 * p.length + 3 ∧
    (frame p).head? = some 0x7D#8 ∧ 0x7D#8 ∉ (frame p).tail ∧
    (∀ k : Nat, (frame p)[k]? = some 0x7E#8 → (frame p)[k + 1]? = some 0x5D#8 ∨ (frame p)[k + 1]? = some 0x5E#8) ∧
    unstuff (frame p).tail = some (p ++ [csum p]) ∧
    ∀ q : List Byte, frame p = frame q → p = q

/-- 95_test_vectors.md P1 (40_packer.md R95 (c), 30_encoding.md R70): a reader of the frame of a valid command gets the command back. -/
def Obligations.ReaderRecoversTheCommand : Prop :=
  ∀ (i : Instr) (p : List Byte), pack i = .ok p → readFrame (frame p) = some i

/-- 41_frame_encoder.md R113, 92_eei_decisions.md D12: from the header phase the step machine writes exactly `frame` of ANY payload
of 0 to 5 bytes in the buffer, under any backpressure, one byte at each ready edge. -/
def Obligations.EncoderWritesTheFrameOfAnyPayload : Prop :=
  ∀ (s : State) (qs rest : List Pins),
    s.live = true → s.phase = .hdr → s.idx = 0 → s.esc = false → s.plen ≤ 5 →
    s.pins = qs ++ rest → (∀ q ∈ qs, undisturbed q = true) → qs.getLast?.map (·.txReady) = some true →
    readyEdges qs = (frame s.payload).length →
      ∃ t, runFor qs.length s = .next t ∧ t.phase = .idle ∧ t.wire = s.wire ++ frame s.payload ∧ t.acc = csum s.payload ∧
        t.esc = false ∧ t.pb = s.pb ∧ t.plen = s.plen ∧ (s.plen ≠ 0 → t.idx = s.plen) ∧ t.fcode = s.fcode ∧
        t.accepted = s.accepted ∧ t.program = s.program ∧ t.sched = s.sched ∧ t.pins = rest ∧ t.live = true

/-- 41_frame_encoder.md R128, 10_state.md R37: from IDLE, an accepted valid command is written as exactly `frame(pack(c))`, one byte at
each ready edge, and what the registers then hold. -/
def Obligations.AcceptedCommandIsWrittenAsItsFrame : Prop :=
  ∀ (s : State) (q : Pins) (qs rest : List Pins) (p : List Byte),
    s.ordinaryEdge → s.phase = .idle → s.levels.cmdValid = true → pack (decodeCommand s.levels.cmd) = .ok p →
    s.pins = q :: qs ++ rest → (∀ r ∈ qs, undisturbed r = true) → qs.getLast?.map (·.txReady) = some true →
    readyEdges qs = (frame p).length →
      ∃ t, runFor (1 + qs.length) s = .next t ∧ t.phase = .idle ∧ t.wire = s.wire ++ frame p ∧
        t.accepted = s.accepted ++ [decodeCommand s.levels.cmd] ∧ t.program = s.program.tail ∧
        t.acc = csum p ∧ t.payload = p ∧ t.idx = t.plen ∧ t.esc = false ∧ t.fcode = s.fcode ∧
        t.sched = s.sched ∧ t.pins = rest ∧ t.live = true

/-- 60_exceptions.md R175, R176: a write that fails after `k` successful ones leaves on the wire the first `k` bytes of the frame, or
those and the failed byte, and the block in FAULT with code 2. -/
def Obligations.FailedWriteCutsTheFrame : Prop :=
  ∀ (s : State) (qs rest : List Pins) (q : Pins) (k : Nat),
    s.live = true → s.phase = .hdr → s.idx = 0 → s.esc = false → s.plen ≤ 5 →
    s.pins = qs ++ q :: rest → (∀ r ∈ qs, undisturbed r = true) → readyEdges qs = k → k < (frame s.payload).length →
    q.rst = false → q.txReady = true → q.txErr = true →
      ∃ t, runFor (qs.length + 1) s = .next t ∧ t.phase = .fault ∧ t.fcode = 2 ∧
        (t.wire = s.wire ++ (frame s.payload).take k ∨ t.wire = s.wire ++ (frame s.payload).take (k + 1))

/-- 70_reset_and_hazards.md R202: a reset inside a frame abandons it; the bytes already written stay written, and nothing of it is left
to be written. -/
def Obligations.ResetCutsTheFrame : Prop :=
  ∀ (s : State) (qs rest : List Pins) (q : Pins) (k : Nat),
    s.live = true → s.hosted = false → s.phase = .hdr → s.idx = 0 → s.esc = false → s.plen ≤ 5 →
    s.pins = qs ++ q :: rest → (∀ r ∈ qs, undisturbed r = true) → readyEdges qs = k → k < (frame s.payload).length →
    q.rst = true →
      ∃ t, runFor (qs.length + 1) s = .next t ∧ t.phase = .idle ∧ t.esc = false ∧ t.fcode = 0 ∧
        t.wire = s.wire ++ (frame s.payload).take k ∧ t.remaining = [] ∧ t.program = s.program

/-- 20_memory.md R49 (a), (b): at any point the bytes written, with those still to be written for the frame in progress, are the
concatenation of one frame per command accepted since, in order, under any host and any backpressure: it holds at any point in
IDLE, and every step keeps it but a RESET, which starts a new run, and a failed write, which cuts the frame. -/
def Obligations.WireStreamIsTheFramesInOrder : Prop :=
  (∀ s : State, s.phase = .idle → State.framedSince s.accepted s.wire s) ∧
  (∀ (a : List Instr) (w : List Byte) (s t : State), Inv s → State.framedSince a w s → step s = .next t →
    ¬ s.resetEdge → ¬ s.failedWrite → State.framedSince a w t)

/-- 20_memory.md R49 (a), 70_reset_and_hazards.md R209: a host's program of valid commands is accepted and written whole, under any
backpressure, once the transport has been ready often enough; no number of edges is claimed (R211). That the host has its next
command at the port whenever the block is idle is the model's host with a program (log entry 4). -/
def Obligations.ProgramIsWrittenAsItsFrames : Prop :=
  ∀ ws : List CmdWires, (∀ w ∈ ws, hostMayOffer (.command w)) → ∃ enough : Nat, ∀ (s : State) (qs rest : List Pins),
    s.live = true → s.phase = .idle → s.sched = none → s.program = ws.map .command → s.pins = qs ++ rest →
    (∀ q ∈ qs, undisturbed q = true) → enough ≤ readyEdges qs →
      ∃ n t, n ≤ qs.length ∧ runFor n s = .next t ∧ t.phase = .idle ∧ t.program = [] ∧
        t.wire = s.wire ++ ws.flatMap frameOf ∧ t.accepted = s.accepted ++ ws.map decodeCommand ∧ t.fcode = s.fcode

/-! ### Encodings -/

/-- Every well-formed instruction is read back from its own encoding, with every operand at every value. -/
def Obligations.DecodeOfEncode : Prop :=
  ∀ i : Instr, i.wf = true → decode (encode i) = .ok i

/-- A payload that decodes is exactly the encoding of what it decodes to: no payload bit is ignored (30_encoding.md R61 to R66), and
the packer produces it (40_packer.md R95 (d)). -/
def Obligations.PayloadDecodingLosesNothing : Prop :=
  ∀ (bytes : List Byte) (i : Instr), decode (.payload bytes) = .ok i → encode i = .payload bytes ∧ pack i = .ok bytes

/-- A host's line for a command or TICK is read back from the port, whatever the ports hold that the tag does not use. -/
def Obligations.DecodeOfHostLine : Prop :=
  ∀ (i : Instr) (l : Line), lineOf i = some l → decode (.line l) = .ok i

/-- 40_packer.md R95, whole. -/
def Obligations.PackIsInjectiveWithThisImage : Prop :=
  (∀ (x y th : BitVec 12) (calib : BitVec 13) (command : BitVec 5), ∃ p q r,
    pack (.vel x y th) = .ok p ∧ p.length = 5 ∧ (p.getD 0 0).extractLsb' 5 3 = 0#3 ∧
    pack (.rot calib) = .ok q ∧ q.length = 2 ∧ (q.getD 0 0).extractLsb' 5 3 = 1#3 ∧
    pack (.kick command) = .ok r ∧ r.length = 1 ∧ (r.getD 0 0).extractLsb' 5 3 = 2#3) ∧
  (∀ (i j : Instr) (p : List Byte), pack i = .ok p → pack j = .ok p → i = j ∧ decodePayload p = .ok i) ∧
  (∀ p : List Byte, (∃ i, pack i = .ok p) ↔
    (∃ b0 b1 b2 b3 b4 : Byte, p = [b0, b1, b2, b3, b4] ∧ b0.extractLsb' 5 3 = 0#3 ∧ b3.extractLsb' 4 1 = 0#1) ∨
    (∃ b0 b1 : Byte, p = [b0, b1] ∧ b0.extractLsb' 5 3 = 1#3) ∨
    (∃ b0 : Byte, p = [b0] ∧ b0.extractLsb' 5 3 = 2#3))

/-- 30_encoding.md R74, whole: which logical bytes of the block's payloads collide, and how many escapes a frame can have. -/
def Obligations.WhichBytesCollide : Prop :=
  (∀ (x y th : BitVec 12) (p : List Byte), pack (.vel x y th) = .ok p →
    collide (p.getD 0 0) = false ∧
    (collide (p.getD 1 0) = true ↔
      (x.extractLsb' 0 7 = 0x3E#7 ∧ y.extractLsb' 11 1 = 1#1) ∨ (x.extractLsb' 0 7 = 0x3F#7 ∧ y.extractLsb' 11 1 = 0#1)) ∧
    (collide (p.getD 2 0) = true ↔ y.extractLsb' 3 8 = 0x7D#8 ∨ y.extractLsb' 3 8 = 0x7E#8) ∧
    collide (p.getD 3 0) = false ∧
    (collide (p.getD 4 0) = true ↔ th.extractLsb' 0 8 = 0x7D#8 ∨ th.extractLsb' 0 8 = 0x7E#8) ∧
    escapes p ≤ 4) ∧
  (∃ p, pack (.vel 62 3055 2429) = .ok p ∧ escapes p = 4 ∧ collide (csum p) = true) ∧
  (∃ p, pack (.vel 0 0 0) = .ok p ∧ csum p = 0x7D#8) ∧
  (∀ (calib : BitVec 13) (b0 b1 : Byte), pack (.rot calib) = .ok [b0, b1] →
    collide b0 = false ∧
    (collide b1 = true ↔ calib.extractLsb' 0 8 = 0x7D#8 ∨ calib.extractLsb' 0 8 = 0x7E#8) ∧
    (collide (csum [b0, b1]) = true ↔ (b0 + b1 = 0x00#8 ∨ b0 + b1 = 0x01#8) ∧ collide b1 = false) ∧
    escapes [b0, b1] ≤ 1) ∧
  (∀ (command : BitVec 5) (b0 : Byte), pack (.kick command) = .ok [b0] →
    collide b0 = false ∧ collide (csum [b0]) = false ∧ escapes [b0] = 0)

/-- 30_encoding.md R69: the wire lengths of the three formats; 42_host_scheduler.md R144: one tick puts 14 to 19 bytes on the wire. -/
def Obligations.WireLengthsOfTheFormats : Prop :=
  ∀ (x y th : BitVec 12) (calib : BitVec 13) (command : BitVec 5) (p q r : List Byte),
    pack (.vel x y th) = .ok p → pack (.rot calib) = .ok q → pack (.kick command) = .ok r →
      7 ≤ (frame p).length ∧ (frame p).length ≤ 11 ∧ ((frame q).length = 4 ∨ (frame q).length = 5) ∧ (frame r).length = 3 ∧
      14 ≤ (frame p ++ frame q ++ frame r).length ∧ (frame p ++ frame q ++ frame r).length ≤ 19

/-! ### The scheduler, one particular host -/

/-- 42_host_scheduler.md R153: the command line's fallbacks. -/
def Obligations.SchedulerArgumentFallback : Prop :=
  ∀ a b : Int,
    (a ≤ 0 ∨ 100000 ≤ a → (Scheduler.start (some a) (some b)).hz = 120) ∧
    (0 < a → a < 100000 → ((Scheduler.start (some a) (some b)).hz : Int) = a) ∧
    (b ≤ 0 → (Scheduler.start (some a) (some b)).tickLimit = none) ∧
    (0 < b → ∃ n : Nat, (n : Int) = b ∧ (Scheduler.start (some a) (some b)).tickLimit = some n) ∧
    (Scheduler.start none (some b)).hz = 120 ∧ (Scheduler.start (some a) none).tickLimit = none ∧
    (Scheduler.start (some a) (some b)).running = true

/-- 42_host_scheduler.md R144, R146: what each stage of a tick does, for every elapsed time, every kind of division and every arrival of
signals. -/
def Obligations.SchedulerTickEnd : Prop :=
  (∀ (h : Scheduler) (exact : Bool) (elapsed : Nat),
    (0 < h.hz → elapsed * h.hz < 1000000 - h.hz →
      (h.measure exact elapsed).stage = .suspended ∧ (h.measure exact elapsed).overruns = h.overruns) ∧
    (0 < h.hz → 1000000 ≤ elapsed * h.hz →
      (h.measure exact elapsed).stage = .boundary ∧ (h.measure exact elapsed).overruns = h.overruns + 1) ∧
    (h.measure exact elapsed).ticks = h.ticks ∧ (h.measure exact elapsed).running = h.running) ∧
  (∀ (h : Scheduler) (signalled : Bool),
    (h.endTick signalled).ticks = h.ticks + 1 ∧ (h.endTick signalled).stage = .start ∧
    ((h.endTick signalled).running = false ↔
      (∃ n, h.tickLimit = some n ∧ n ≤ h.ticks + 1) ∨ h.cancel = true ∨ signalled = true) ∧
    ((h.endTick signalled).cancel = true ↔ h.cancel = true ∨ signalled = true) ∧
    (h.tickLimit = none → (h.endTick signalled).diagnostics = h.diagnostics))

/-- 42_host_scheduler.md R144: the stages follow each other as the steps of a tick do, each when the block is idle and no line is left.
That a move takes no edge, and that the rest of the period has a free number of edges, is the model's choice (log entries 17, 24). -/
def Obligations.SchedulerTickInOrder : Prop :=
  ∀ (s : State) (h : Scheduler), s.live = true → s.sched = some h → h.running = true → s.phase = .idle → s.program = [] →
    (h.stage = .start → ∃ x y th calib command,
      step s = .next { s with program := [.tick x y th calib command], sched := some { h with stage := .frames } }) ∧
    (h.stage = .frames →
      step s = .next { s with sched := some (h.measure Config.exactPeriod (Config.elapsedMicros s.edge)) }) ∧
    (h.stage = .suspended →
      step s = .next { s with sched := some h.wake } ∨
      (s.levels.cmdValid = false ∧ step s = .next { s with pins := s.pins.tail, edge := s.edge + 1 })) ∧
    (h.stage = .boundary → step s = .next { s with sched := some (h.endTick (Config.cancelSignal s.edge)) })

/-- 42_host_scheduler.md R155: the cancellation scenario. -/
def Obligations.SchedulerCancellation : Prop :=
  ∀ (h : Scheduler) (n : Nat), h.tickLimit = some n → h.ticks + 1 < n →
    (h.endTick true).running = false ∧ (h.endTick true).ticks < n ∧
    (h.endTick true).diagnostics = h.diagnostics + 1 ∧ (h.endTick true).exitStatus = 0

/-- 42_host_scheduler.md R157, R150: a block whose host is this one is not reset while it runs, is never offered an illegal tag and so never
takes InvalidDatatype, and a running host that sees the fault stops and drops the lines it had left. -/
def Obligations.SchedulerHostIsWellBehaved : Prop :=
  (∀ (s t : State) (h : Scheduler), s.live = true → s.sched = some h → (∀ l ∈ s.program, hostMayOffer l) → s.fcode ≠ 1 →
    step s = .next t →
      (h.running = true → s.levels.rst = false) ∧ t.sched.isSome = true ∧ (∀ l ∈ t.program, hostMayOffer l) ∧ t.fcode ≠ 1 ∧
      (t.accepted = s.accepted ∨ ∃ i, validCommand i = true ∧ t.accepted = s.accepted ++ [i])) ∧
  (∀ (s : State) (h : Scheduler), s.live = true → s.sched = some h → h.running = true → s.phase = .fault →
    ∃ g : Scheduler, g.running = false ∧ g.ticks = h.ticks ∧ step s = .next { s with program := [], sched := some g })

/-- 42_host_scheduler.md R144, R154, R157: at which edges this host asserts `cmd_valid`: while it runs, after the frame before is complete
(so never while `busy` or `fault` is 1), for the command that is next, until it is accepted; and once stopped it stays stopped, offers
nothing, and nothing more is accepted for ever. Two clauses are the MODEL's choice (log entry 17, DESIGN CHOICE), not these rules': that
it offers at EVERY idle edge with a command next, with no gap, and that after any stop `rst` is the environment's again. -/
def Obligations.SchedulerOffersOnlyAfterTheFrame : Prop :=
  (∀ (s : State) (h : Scheduler), s.sched = some h →
    (s.levels.cmdValid = true ↔
      h.running = true ∧ s.phase = .idle ∧ ∃ rest, s.program = .command s.levels.cmd :: rest)) ∧
  (∀ (s : State) (h : Scheduler) (w : CmdWires) (rest : List Line), s.live = true → s.sched = some h → h.running = true →
    s.phase = .idle → s.program = .command w :: rest →
    ∃ t, step s = .next t ∧ t.accepted = s.accepted ++ [decodeCommand w] ∧ t.program = rest ∧ t.sched = some h ∧
      t.levels.cmdValid = false) ∧
  (∀ (s t : State) (h : Scheduler) (n : Nat), s.sched = some h → h.running = false → runFor n s = .next t →
    t.sched = some h ∧ t.accepted = s.accepted ∧ t.levels.cmdValid = false) ∧
  (∀ (s : State) (h : Scheduler), s.sched = some h → h.running = false → s.levels.rst = s.rawPins.rst)
end

