-- ==== Sys2Proof/Laws/Packer.lean ====
section
/-! SUPPORT. The packer's formulas are the encoder's layout tables, bit by bit (40_packer.md R91 to R93: "the right column is the same
value as a concatenation"), and a reader gets the fields back (30_encoding.md R66). -/

namespace Sys2Proof.Machine

/-! ### The bits of the formulas -/

theorem trunc8_or_shift (a m b k j : Nat) (i : Nat) (hi : i < 8) :
    (trunc8 (((a &&& m) <<< k) ||| (b >>> j))).getLsbD i =
      ((decide (k ≤ i) && (a.testBit (i - k) && m.testBit (i - k))) || b.testBit (j + i)) := by
  simp only [trunc8, BitVec.getLsbD_ofNat, Nat.testBit_or, Nat.testBit_and, Nat.testBit_shiftLeft, Nat.testBit_shiftRight, hi, decide_true, Bool.true_and, ge_iff_le]

theorem trunc8_shift_mask (a j m : Nat) (i : Nat) (hi : i < 8) :
    (trunc8 ((a >>> j) &&& m)).getLsbD i = (a.testBit (j + i) && m.testBit i) := by
  simp only [trunc8, BitVec.getLsbD_ofNat, Nat.testBit_and, Nat.testBit_shiftRight, hi, decide_true, Bool.true_and]

theorem trunc8_mask (a m : Nat) (i : Nat) (hi : i < 8) : (trunc8 (a &&& m)).getLsbD i = (a.testBit i && m.testBit i) := by
  simp only [trunc8, BitVec.getLsbD_ofNat, Nat.testBit_and, hi, decide_true, Bool.true_and]

theorem trunc8_or_high (c b j : Nat) (i : Nat) (hi : i < 8) :
    (trunc8 (c ||| (b >>> j))).getLsbD i = (c.testBit i || b.testBit (j + i)) := by
  simp only [trunc8, BitVec.getLsbD_ofNat, Nat.testBit_or, Nat.testBit_shiftRight, hi, decide_true, Bool.true_and]

theorem packVelocity_b0 (x : BitVec 12) : trunc8 ((0 <<< 5) ||| (x.toNat >>> 7)) = 0b000#3 ++ x.extractLsb' 7 5 := by
  apply BitVec.eq_of_getLsbD_eq; intro i hi
  rw [trunc8_or_high _ _ _ _ hi]
  simp only [BitVec.testBit_toNat, BitVec.getLsbD_append, BitVec.getLsbD_extractLsb']
  interval_cases i <;> simp

theorem packVelocity_b1 (x y : BitVec 12) :
    trunc8 (((x.toNat &&& 0x7F) <<< 1) ||| (y.toNat >>> 11)) = x.extractLsb' 0 7 ++ y.extractLsb' 11 1 := by
  apply BitVec.eq_of_getLsbD_eq; intro i hi
  rw [trunc8_or_shift _ _ _ _ _ _ hi]
  simp only [BitVec.testBit_toNat, BitVec.getLsbD_append, BitVec.getLsbD_extractLsb']
  interval_cases i <;> simp <;> exact fun _ => rfl

theorem packVelocity_b2 (y : BitVec 12) : trunc8 ((y.toNat >>> 3) &&& 0xFF) = y.extractLsb' 3 8 := by
  apply BitVec.eq_of_getLsbD_eq; intro i hi
  rw [trunc8_shift_mask _ _ _ _ hi]
  simp only [BitVec.testBit_toNat, BitVec.getLsbD_extractLsb']
  interval_cases i <;> simp <;> exact fun _ => rfl

theorem packVelocity_b3 (y th : BitVec 12) :
    trunc8 (((y.toNat &&& 0x3F) <<< 5) ||| (th.toNat >>> 8)) = y.extractLsb' 0 3 ++ 0b0#1 ++ th.extractLsb' 8 4 := by
  apply BitVec.eq_of_getLsbD_eq; intro i hi
  rw [trunc8_or_shift _ _ _ _ _ _ hi]
  simp only [BitVec.testBit_toNat, BitVec.getLsbD_append, BitVec.getLsbD_extractLsb']
  interval_cases i <;> simp <;> exact fun _ => rfl

theorem pack_low_byte {n : Nat} (a : BitVec n) : trunc8 (a.toNat &&& 0xFF) = a.extractLsb' 0 8 := by
  apply BitVec.eq_of_getLsbD_eq; intro i hi
  rw [trunc8_mask _ _ _ hi]
  simp only [BitVec.testBit_toNat, BitVec.getLsbD_extractLsb', hi, decide_true, Bool.true_and, Nat.zero_add]
  interval_cases i <;> simp <;> exact fun _ => rfl

theorem packRotation_b0 (c : BitVec 13) : trunc8 ((1 <<< 5) ||| (c.toNat >>> 8)) = 0b001#3 ++ c.extractLsb' 8 5 := by
  apply BitVec.eq_of_getLsbD_eq; intro i hi
  rw [trunc8_or_high _ _ _ _ hi]
  simp only [BitVec.testBit_toNat, BitVec.getLsbD_append, BitVec.getLsbD_extractLsb']
  interval_cases i <;> simp [Nat.testBit]

theorem packKicker_b0 (c : BitVec 5) : trunc8 ((2 <<< 5) ||| c.toNat) = 0b010#3 ++ c := by
  revert c; decide

/-- The packer and the encoder agree on every command (40_packer.md R91 to R93, 30_encoding.md R61 to R63). -/
theorem packVelocity_eq_encode (x y th : BitVec 12) : packVelocity x y th = encodeVelocity x y th := by
  simp only [packVelocity, encodeVelocity, packVelocity_b0, packVelocity_b1, packVelocity_b2, packVelocity_b3, pack_low_byte]

theorem packRotation_eq_encode (c : BitVec 13) : packRotation c = encodeRotation c := by
  simp only [packRotation, encodeRotation, packRotation_b0, pack_low_byte]

theorem packKicker_eq_encode (c : BitVec 5) : packKicker c = encodeKicker c := by
  simp only [packKicker, encodeKicker, packKicker_b0]

/-! ### The fields come back -/

theorem velocity_x_back (x y : BitVec 12) :
    (0b000#3 ++ x.extractLsb' 7 5 : Byte).extractLsb' 0 5 ++ (x.extractLsb' 0 7 ++ y.extractLsb' 11 1 : Byte).extractLsb' 1 7 = x := by
  apply BitVec.eq_of_getLsbD_eq; intro i hi
  simp only [BitVec.getLsbD_append, BitVec.getLsbD_extractLsb']
  interval_cases i <;> simp

theorem velocity_y_back (x y th : BitVec 12) :
    (x.extractLsb' 0 7 ++ y.extractLsb' 11 1 : Byte).extractLsb' 0 1 ++ y.extractLsb' 3 8 ++
      (y.extractLsb' 0 3 ++ 0b0#1 ++ th.extractLsb' 8 4 : Byte).extractLsb' 5 3 = y := by
  apply BitVec.eq_of_getLsbD_eq; intro i hi
  simp only [BitVec.getLsbD_append, BitVec.getLsbD_extractLsb']
  interval_cases i <;> simp

theorem velocity_th_back (y th : BitVec 12) :
    (y.extractLsb' 0 3 ++ 0b0#1 ++ th.extractLsb' 8 4 : Byte).extractLsb' 0 4 ++ th.extractLsb' 0 8 = th := by
  apply BitVec.eq_of_getLsbD_eq; intro i hi
  simp only [BitVec.getLsbD_append, BitVec.getLsbD_extractLsb']
  interval_cases i <;> simp

theorem velocity_pad (y th : BitVec 12) :
    (y.extractLsb' 0 3 ++ 0b0#1 ++ th.extractLsb' 8 4 : Byte).extractLsb' 4 1 = 0#1 := by
  apply BitVec.eq_of_getLsbD_eq; intro i hi
  simp only [BitVec.getLsbD_append, BitVec.getLsbD_extractLsb']
  interval_cases i
  simp

theorem rotation_back (c : BitVec 13) :
    (0b001#3 ++ c.extractLsb' 8 5 : Byte).extractLsb' 0 5 ++ c.extractLsb' 0 8 = c := by
  apply BitVec.eq_of_getLsbD_eq; intro i hi
  simp only [BitVec.getLsbD_append, BitVec.getLsbD_extractLsb']
  interval_cases i <;> simp

/-- The tag of a byte that was put together from it. -/
theorem tag_of_append (t : Tag) (f : BitVec 5) : (t ++ f : Byte).extractLsb' 5 3 = t := by
  revert t f; decide

/-- The low five bits of a byte that was put together from them. -/
theorem field_of_append (t : Tag) (f : BitVec 5) : (t ++ f : Byte).extractLsb' 0 5 = f := by
  revert t f; decide

/-! ### Payloads are read back -/

/-- A reader gets the fields back (30_encoding.md R66). -/
theorem decodePayload_encodeVelocity (x y th : BitVec 12) :
    decodePayload (encodeVelocity x y th) = .ok (.vel x y th) := by
  simp only [encodeVelocity, decodePayload, tag_of_append, if_true, decodeVelocity, velocity_pad, velocity_x_back,
    velocity_y_back, velocity_th_back]

theorem decodePayload_encodeRotation (c : BitVec 13) : decodePayload (encodeRotation c) = .ok (.rot c) := by
  have : (1#3 : BitVec 3) ≠ 0#3 := by decide
  simp only [encodeRotation, decodePayload, tag_of_append, this, if_false, if_true, rotation_back]

theorem decodePayload_encodeKicker (c : BitVec 5) : decodePayload (encodeKicker c) = .ok (.kick c) := by
  have h0 : (2#3 : BitVec 3) ≠ 0#3 := by decide
  have h1 : (2#3 : BitVec 3) ≠ 1#3 := by decide
  simp only [encodeKicker, decodePayload, tag_of_append, h0, h1, if_false, if_true, field_of_append]

end Sys2Proof.Machine
end

