-- ==== Sys2Proof/Laws/State.lean ====
section
/-! SUPPORT. One lemma per field per update of the state, true by rfl, so that no later proof unfolds a record update. -/

namespace Sys2Proof.Machine

variable (s : State)

/-! ### State.raise -/

@[simp] theorem State.raise_pb (code : FaultCode) : (s.raise code).pb = s.pb := rfl
@[simp] theorem State.raise_plen (code : FaultCode) : (s.raise code).plen = s.plen := rfl
@[simp] theorem State.raise_phase (code : FaultCode) : (s.raise code).phase = .fault := rfl
@[simp] theorem State.raise_idx (code : FaultCode) : (s.raise code).idx = s.idx := rfl
@[simp] theorem State.raise_esc (code : FaultCode) : (s.raise code).esc = s.esc := rfl
@[simp] theorem State.raise_acc (code : FaultCode) : (s.raise code).acc = s.acc := rfl
@[simp] theorem State.raise_fcode (code : FaultCode) : (s.raise code).fcode = code := rfl
@[simp] theorem State.raise_wire (code : FaultCode) : (s.raise code).wire = s.wire := rfl
@[simp] theorem State.raise_accepted (code : FaultCode) : (s.raise code).accepted = s.accepted := rfl
@[simp] theorem State.raise_pins (code : FaultCode) : (s.raise code).pins = s.pins := rfl
@[simp] theorem State.raise_program (code : FaultCode) : (s.raise code).program = s.program := rfl
@[simp] theorem State.raise_sched (code : FaultCode) : (s.raise code).sched = s.sched := rfl
@[simp] theorem State.raise_edge (code : FaultCode) : (s.raise code).edge = s.edge := rfl
@[simp] theorem State.raise_live (code : FaultCode) : (s.raise code).live = s.live := rfl

/-! ### State.resetWrites -/

@[simp] theorem State.resetWrites_pb : (s.resetWrites).pb = s.pb := rfl
@[simp] theorem State.resetWrites_plen : (s.resetWrites).plen = s.plen := rfl
@[simp] theorem State.resetWrites_phase : (s.resetWrites).phase = .idle := rfl
@[simp] theorem State.resetWrites_idx : (s.resetWrites).idx = s.idx := rfl
@[simp] theorem State.resetWrites_esc : (s.resetWrites).esc = false := rfl
@[simp] theorem State.resetWrites_acc : (s.resetWrites).acc = s.acc := rfl
@[simp] theorem State.resetWrites_fcode : (s.resetWrites).fcode = 0 := rfl
@[simp] theorem State.resetWrites_wire : (s.resetWrites).wire = s.wire := rfl
@[simp] theorem State.resetWrites_accepted : (s.resetWrites).accepted = s.accepted := rfl
@[simp] theorem State.resetWrites_pins : (s.resetWrites).pins = s.pins := rfl
@[simp] theorem State.resetWrites_program : (s.resetWrites).program = s.program := rfl
@[simp] theorem State.resetWrites_sched : (s.resetWrites).sched = s.sched := rfl
@[simp] theorem State.resetWrites_edge : (s.resetWrites).edge = s.edge := rfl
@[simp] theorem State.resetWrites_live : (s.resetWrites).live = true := rfl

/-! ### State.advance -/

@[simp] theorem State.advance_pb : (s.advance).pb = s.pb := rfl
@[simp] theorem State.advance_plen : (s.advance).plen = s.plen := rfl
@[simp] theorem State.advance_phase : (s.advance).phase = s.phase := rfl
@[simp] theorem State.advance_idx : (s.advance).idx = s.idx := rfl
@[simp] theorem State.advance_esc : (s.advance).esc = s.esc := rfl
@[simp] theorem State.advance_acc : (s.advance).acc = s.acc := rfl
@[simp] theorem State.advance_fcode : (s.advance).fcode = s.fcode := rfl
@[simp] theorem State.advance_wire : (s.advance).wire = s.wire := rfl
@[simp] theorem State.advance_accepted : (s.advance).accepted = s.accepted := rfl
@[simp] theorem State.advance_pins : (s.advance).pins = s.pins.tail := rfl
@[simp] theorem State.advance_program : (s.advance).program = s.program := rfl
@[simp] theorem State.advance_sched : (s.advance).sched = s.sched := rfl
@[simp] theorem State.advance_edge : (s.advance).edge = s.edge + 1 := rfl
@[simp] theorem State.advance_live : (s.advance).live = s.live := rfl

/-! ### State.deliver -/

@[simp] theorem State.deliver_pb (b : Byte) : (s.deliver b).pb = s.pb := rfl
@[simp] theorem State.deliver_plen (b : Byte) : (s.deliver b).plen = s.plen := rfl
@[simp] theorem State.deliver_phase (b : Byte) : (s.deliver b).phase = s.phase := rfl
@[simp] theorem State.deliver_idx (b : Byte) : (s.deliver b).idx = s.idx := rfl
@[simp] theorem State.deliver_esc (b : Byte) : (s.deliver b).esc = s.esc := rfl
@[simp] theorem State.deliver_acc (b : Byte) : (s.deliver b).acc = s.acc := rfl
@[simp] theorem State.deliver_fcode (b : Byte) : (s.deliver b).fcode = s.fcode := rfl
@[simp] theorem State.deliver_wire (b : Byte) : (s.deliver b).wire = s.wire ++ [b] := rfl
@[simp] theorem State.deliver_accepted (b : Byte) : (s.deliver b).accepted = s.accepted := rfl
@[simp] theorem State.deliver_pins (b : Byte) : (s.deliver b).pins = s.pins := rfl
@[simp] theorem State.deliver_program (b : Byte) : (s.deliver b).program = s.program := rfl
@[simp] theorem State.deliver_sched (b : Byte) : (s.deliver b).sched = s.sched := rfl
@[simp] theorem State.deliver_edge (b : Byte) : (s.deliver b).edge = s.edge := rfl
@[simp] theorem State.deliver_live (b : Byte) : (s.deliver b).live = s.live := rfl

/-! ### State.record -/

@[simp] theorem State.record_pb (i : Instr) : (s.record i).pb = s.pb := rfl
@[simp] theorem State.record_plen (i : Instr) : (s.record i).plen = s.plen := rfl
@[simp] theorem State.record_phase (i : Instr) : (s.record i).phase = s.phase := rfl
@[simp] theorem State.record_idx (i : Instr) : (s.record i).idx = s.idx := rfl
@[simp] theorem State.record_esc (i : Instr) : (s.record i).esc = s.esc := rfl
@[simp] theorem State.record_acc (i : Instr) : (s.record i).acc = s.acc := rfl
@[simp] theorem State.record_fcode (i : Instr) : (s.record i).fcode = s.fcode := rfl
@[simp] theorem State.record_wire (i : Instr) : (s.record i).wire = s.wire := rfl
@[simp] theorem State.record_accepted (i : Instr) : (s.record i).accepted = s.accepted ++ [i] := rfl
@[simp] theorem State.record_pins (i : Instr) : (s.record i).pins = s.pins := rfl
@[simp] theorem State.record_program (i : Instr) : (s.record i).program = s.program := rfl
@[simp] theorem State.record_sched (i : Instr) : (s.record i).sched = s.sched := rfl
@[simp] theorem State.record_edge (i : Instr) : (s.record i).edge = s.edge := rfl
@[simp] theorem State.record_live (i : Instr) : (s.record i).live = s.live := rfl

/-! ### State.loadPayload -/

@[simp] theorem State.loadPayload_pb (p : List Byte) : (s.loadPayload p).pb = .load p := rfl
@[simp] theorem State.loadPayload_plen (p : List Byte) : (s.loadPayload p).plen = BitVec.ofNat 3 p.length := rfl
@[simp] theorem State.loadPayload_phase (p : List Byte) : (s.loadPayload p).phase = .hdr := rfl
@[simp] theorem State.loadPayload_idx (p : List Byte) : (s.loadPayload p).idx = 0 := rfl
@[simp] theorem State.loadPayload_esc (p : List Byte) : (s.loadPayload p).esc = false := rfl
@[simp] theorem State.loadPayload_acc (p : List Byte) : (s.loadPayload p).acc = s.acc := rfl
@[simp] theorem State.loadPayload_fcode (p : List Byte) : (s.loadPayload p).fcode = s.fcode := rfl
@[simp] theorem State.loadPayload_wire (p : List Byte) : (s.loadPayload p).wire = s.wire := rfl
@[simp] theorem State.loadPayload_accepted (p : List Byte) : (s.loadPayload p).accepted = s.accepted := rfl
@[simp] theorem State.loadPayload_pins (p : List Byte) : (s.loadPayload p).pins = s.pins := rfl
@[simp] theorem State.loadPayload_program (p : List Byte) : (s.loadPayload p).program = s.program := rfl
@[simp] theorem State.loadPayload_sched (p : List Byte) : (s.loadPayload p).sched = s.sched := rfl
@[simp] theorem State.loadPayload_edge (p : List Byte) : (s.loadPayload p).edge = s.edge := rfl
@[simp] theorem State.loadPayload_live (p : List Byte) : (s.loadPayload p).live = s.live := rfl

/-! ### State.headerWrites -/

@[simp] theorem State.headerWrites_pb : (s.headerWrites).pb = s.pb := rfl
@[simp] theorem State.headerWrites_plen : (s.headerWrites).plen = s.plen := rfl
@[simp] theorem State.headerWrites_phase : (s.headerWrites).phase = if s.plen = 0 then .csum else .pay := rfl
@[simp] theorem State.headerWrites_idx : (s.headerWrites).idx = s.idx := rfl
@[simp] theorem State.headerWrites_esc : (s.headerWrites).esc = s.esc := rfl
@[simp] theorem State.headerWrites_acc : (s.headerWrites).acc = Config.header := rfl
@[simp] theorem State.headerWrites_fcode : (s.headerWrites).fcode = s.fcode := rfl
@[simp] theorem State.headerWrites_wire : (s.headerWrites).wire = s.wire := rfl
@[simp] theorem State.headerWrites_accepted : (s.headerWrites).accepted = s.accepted := rfl
@[simp] theorem State.headerWrites_pins : (s.headerWrites).pins = s.pins := rfl
@[simp] theorem State.headerWrites_program : (s.headerWrites).program = s.program := rfl
@[simp] theorem State.headerWrites_sched : (s.headerWrites).sched = s.sched := rfl
@[simp] theorem State.headerWrites_edge : (s.headerWrites).edge = s.edge := rfl
@[simp] theorem State.headerWrites_live : (s.headerWrites).live = s.live := rfl

/-! ### State.escapeWrites -/

@[simp] theorem State.escapeWrites_pb : (s.escapeWrites).pb = s.pb := rfl
@[simp] theorem State.escapeWrites_plen : (s.escapeWrites).plen = s.plen := rfl
@[simp] theorem State.escapeWrites_phase : (s.escapeWrites).phase = s.phase := rfl
@[simp] theorem State.escapeWrites_idx : (s.escapeWrites).idx = s.idx := rfl
@[simp] theorem State.escapeWrites_esc : (s.escapeWrites).esc = true := rfl
@[simp] theorem State.escapeWrites_acc : (s.escapeWrites).acc = s.acc := rfl
@[simp] theorem State.escapeWrites_fcode : (s.escapeWrites).fcode = s.fcode := rfl
@[simp] theorem State.escapeWrites_wire : (s.escapeWrites).wire = s.wire := rfl
@[simp] theorem State.escapeWrites_accepted : (s.escapeWrites).accepted = s.accepted := rfl
@[simp] theorem State.escapeWrites_pins : (s.escapeWrites).pins = s.pins := rfl
@[simp] theorem State.escapeWrites_program : (s.escapeWrites).program = s.program := rfl
@[simp] theorem State.escapeWrites_sched : (s.escapeWrites).sched = s.sched := rfl
@[simp] theorem State.escapeWrites_edge : (s.escapeWrites).edge = s.edge := rfl
@[simp] theorem State.escapeWrites_live : (s.escapeWrites).live = s.live := rfl

/-! ### State.payloadWrites -/

@[simp] theorem State.payloadWrites_pb (t : Byte) : (s.payloadWrites t).pb = s.pb := rfl
@[simp] theorem State.payloadWrites_plen (t : Byte) : (s.payloadWrites t).plen = s.plen := rfl
@[simp] theorem State.payloadWrites_phase (t : Byte) : (s.payloadWrites t).phase = if s.idx + 1 = s.plen then .csum else .pay := rfl
@[simp] theorem State.payloadWrites_idx (t : Byte) : (s.payloadWrites t).idx = s.idx + 1 := rfl
@[simp] theorem State.payloadWrites_esc (t : Byte) : (s.payloadWrites t).esc = false := rfl
@[simp] theorem State.payloadWrites_acc (t : Byte) : (s.payloadWrites t).acc = s.acc + t := rfl
@[simp] theorem State.payloadWrites_fcode (t : Byte) : (s.payloadWrites t).fcode = s.fcode := rfl
@[simp] theorem State.payloadWrites_wire (t : Byte) : (s.payloadWrites t).wire = s.wire := rfl
@[simp] theorem State.payloadWrites_accepted (t : Byte) : (s.payloadWrites t).accepted = s.accepted := rfl
@[simp] theorem State.payloadWrites_pins (t : Byte) : (s.payloadWrites t).pins = s.pins := rfl
@[simp] theorem State.payloadWrites_program (t : Byte) : (s.payloadWrites t).program = s.program := rfl
@[simp] theorem State.payloadWrites_sched (t : Byte) : (s.payloadWrites t).sched = s.sched := rfl
@[simp] theorem State.payloadWrites_edge (t : Byte) : (s.payloadWrites t).edge = s.edge := rfl
@[simp] theorem State.payloadWrites_live (t : Byte) : (s.payloadWrites t).live = s.live := rfl

/-! ### State.checksumWrites -/

@[simp] theorem State.checksumWrites_pb : (s.checksumWrites).pb = s.pb := rfl
@[simp] theorem State.checksumWrites_plen : (s.checksumWrites).plen = s.plen := rfl
@[simp] theorem State.checksumWrites_phase : (s.checksumWrites).phase = .idle := rfl
@[simp] theorem State.checksumWrites_idx : (s.checksumWrites).idx = s.idx := rfl
@[simp] theorem State.checksumWrites_esc : (s.checksumWrites).esc = false := rfl
@[simp] theorem State.checksumWrites_acc : (s.checksumWrites).acc = s.acc := rfl
@[simp] theorem State.checksumWrites_fcode : (s.checksumWrites).fcode = s.fcode := rfl
@[simp] theorem State.checksumWrites_wire : (s.checksumWrites).wire = s.wire := rfl
@[simp] theorem State.checksumWrites_accepted : (s.checksumWrites).accepted = s.accepted := rfl
@[simp] theorem State.checksumWrites_pins : (s.checksumWrites).pins = s.pins := rfl
@[simp] theorem State.checksumWrites_program : (s.checksumWrites).program = s.program := rfl
@[simp] theorem State.checksumWrites_sched : (s.checksumWrites).sched = s.sched := rfl
@[simp] theorem State.checksumWrites_edge : (s.checksumWrites).edge = s.edge := rfl
@[simp] theorem State.checksumWrites_live : (s.checksumWrites).live = s.live := rfl

end Sys2Proof.Machine
end

