-- ==== Sys2Proof/Laws/Ops.lean ====
section
/-! SUPPORT. One lemma for each shared operation that says once everything it can do; later proofs cite these. -/

namespace Sys2Proof.Machine

variable {s t done : State} {i : Instr} {b : Byte} {p : List Byte}

/-! ### The transform -/

theorem collide_iff (b : Byte) : collide b = true ↔ b = Config.header ∨ b = Config.escape := by
  simp [collide]

/-- `xf` only yields the byte itself, 0x5D or 0x5E (41_frame_encoder.md R111). -/
theorem xf_cases (b : Byte) :
    (collide b = false ∧ xf b = b) ∨ (b = Config.header ∧ xf b = 0x5D#8) ∨ (b = Config.escape ∧ xf b = 0x5E#8) := by
  rcases h : collide b with _ | _
  · exact .inl ⟨rfl, by simp [xf, h]⟩
  · rcases (collide_iff b).1 h with rfl | rfl
    · exact .inr (.inl ⟨rfl, by decide⟩)
    · exact .inr (.inr ⟨rfl, by decide⟩)

theorem xf_of_not_collide (h : collide b = false) : xf b = b := by simp [xf, h]

/-- A transmitted value never collides (41_frame_encoder.md R111). -/
@[simp] theorem collide_xf (b : Byte) : collide (xf b) = false := by
  rcases xf_cases b with ⟨h, e⟩ | ⟨-, e⟩ | ⟨-, e⟩
  · rw [e, h]
  · rw [e]; decide
  · rw [e]; decide

theorem xf_ne_header (b : Byte) : xf b ≠ Config.header := by
  intro h; have := collide_xf b; rw [h] at this; exact absurd this (by decide)

theorem xf_ne_escape (b : Byte) : xf b ≠ Config.escape := by
  intro h; have := collide_xf b; rw [h] at this; exact absurd this (by decide)

/-! ### The pins -/

theorem levels_txReady (s : State) : s.levels.txReady = s.rawPins.txReady := rfl
theorem levels_txErr (s : State) : s.levels.txErr = s.rawPins.txErr := rfl
theorem levels_rst (s : State) : s.levels.rst = (s.rawPins.rst && !s.hosted) := rfl
theorem levels_cmdValid (s : State) : s.levels.cmdValid = s.cmdValidLevel := rfl

/-! ### The host -/

theorem hosted_none (h : s.sched = none) : s.hosted = false := by simp [State.hosted, h]

theorem hosted_some {g : Scheduler} (h : s.sched = some g) : s.hosted = g.running := by simp [State.hosted, h]

theorem commandNext_command {w : CmdWires} {rest : List Line} (h : s.program = .command w :: rest) : s.commandNext = true := by
  simp [State.commandNext, h]

/-- The only edges at which the scheduler offers a command (42_host_scheduler.md R157). -/
theorem cmdValid_some {g : Scheduler} (h : s.sched = some g) :
    s.levels.cmdValid = (g.running && s.phase == .idle && s.commandNext) := by
  simp [levels_cmdValid, State.cmdValidLevel, h]

theorem cmdValid_none (h : s.sched = none) :
    s.levels.cmdValid = (s.commandNext || (s.program.isEmpty && s.rawPins.cmdValid)) := by
  simp [levels_cmdValid, State.cmdValidLevel, h]

/-- The command of a host that has one next is at the port. -/
theorem cmd_of_commandNext (h : s.commandNext = true) : ∃ rest, s.program = .command s.levels.cmd :: rest := by
  unfold State.commandNext at h
  unfold State.levels
  split at h
  · rename_i w rest hp
    exact ⟨rest, by simp [hp]⟩
  · cases h
  · cases h

/-- The levels of a scripted edge are the script's. -/
@[simp] theorem rawPins_cons {q : Pins} {qs : List Pins} (h : s.pins = q :: qs) : s.rawPins = q := by
  simp [State.rawPins, h]

/-! ### The transport write -/

theorem txWrite_of_success (h : s.levels.txErr = false) : s.txWrite done b = done.deliver b := by
  simp [State.txWrite, h]

/-- Everything the transport write can do (20_memory.md R43): it succeeds, or it faults with the byte delivered or not. -/
theorem txWrite_cases (s done : State) (b : Byte) :
    (s.levels.txErr = false ∧ s.txWrite done b = done.deliver b) ∨
    (s.levels.txErr = true ∧ (s.txWrite done b = s.raise transportWriteError ∨
      s.txWrite done b = (s.raise transportWriteError).deliver b)) := by
  unfold State.txWrite
  rcases h : s.levels.txErr with _ | _
  · simp
  · rcases Config.txDeliveredOnError s.edge with _ | _ <;> simp

/-- Everything the meaning of a wire symbol can do: nothing, or the write of its byte. -/
theorem writeSymbol_cases (s : State) (i : Instr) (b : Byte) (done : State) :
    (s.due = some i ∧ s.levels.txReady = true ∧ s.writeSymbol i b done = s.txWrite done b) ∨
    (¬ (s.due = some i ∧ s.levels.txReady = true) ∧ s.writeSymbol i b done = s) := by
  unfold State.writeSymbol
  by_cases h : s.due = some i ∧ s.levels.txReady = true
  · exact .inl ⟨h.1, h.2, if_pos h⟩
  · exact .inr ⟨h, if_neg h⟩

theorem writeSymbol_of_due (hd : s.due = some i) (hr : s.levels.txReady = true) :
    s.writeSymbol i b done = s.txWrite done b := if_pos ⟨hd, hr⟩

/-! ### Accepting -/

theorem accept_of_idle (h : s.phase = .idle) : s.accept i p = (s.record i).loadPayload p := if_pos h

theorem accept_of_not_idle (h : s.phase ≠ .idle) : s.accept i p = s := if_neg h

theorem acceptIllegal_of_idle (h : s.phase = .idle) : s.acceptIllegal i = (s.record i).raise invalidDatatype := if_pos h

theorem acceptIllegal_of_not_idle (h : s.phase ≠ .idle) : s.acceptIllegal i = s := if_neg h

theorem valueWrites_of_pay (h : s.phase = .pay) : s.valueWrites b = s.payloadWrites b := by
  simp [State.valueWrites, h]

theorem valueWrites_of_csum (h : s.phase = .csum) : s.valueWrites b = s.checksumWrites := by
  simp [State.valueWrites, h]

/-- The head of the program leaves it exactly in IDLE. -/
theorem takeLine_of_not_idle (h : s.phase ≠ .idle) : s.takeLine = s := if_neg h

theorem takeLine_of_idle (h : s.phase = .idle) : s.takeLine = { s with program := s.program.tail } := if_pos h

/-! ### The offered byte and the symbol due -/

/-- The symbol due is ESC exactly where the current byte's escape byte is due, else the transmitted value as LIT or XVAL. -/
theorem due_of_currentByte (hh : s.phase ≠ .hdr) (hb : s.currentByte = some b) :
    s.due = some (if escapeFirst b s.esc then .esc
      else if s.esc = true ∧ (xf b).extractLsb' 2 6 = 0b010111#6 then .xval ((xf b).extractLsb' 0 2)
      else .lit (xf b)) := by
  have hw : s.wireByte = some (wireByteOf b s.esc) := by
    unfold State.wireByte; split
    · contradiction
    · simp [hb]
  have hp : s.wirePos = if s.esc then .afterEscape else .inFrame := by
    unfold State.wirePos; split
    · contradiction
    · rfl
  have h1 := xf_ne_header b
  have h2 := xf_ne_escape b
  have h3 : Config.escape ≠ Config.header := by decide
  simp only [State.due, hw, hp, wireByteOf]
  rcases he : s.esc with _ | _
  · rcases hc : collide b with _ | _
    · simp [escapeFirst, hc, decodeSymbol, h1, h2, Except.toOption]
    · simp [escapeFirst, hc, decodeSymbol, h3, Except.toOption]
  · by_cases hx : (xf b).extractLsb' 2 6 = 0b010111#6
    · simp [escapeFirst, decodeSymbol, h1, h2, hx, Except.toOption]
    · simp [escapeFirst, decodeSymbol, h1, h2, hx, Except.toOption]

theorem due_of_hdr (h : s.phase = .hdr) : s.due = some .hdr := by
  simp [State.due, State.wireByte, State.wirePos, h, decodeSymbol, Except.toOption]

/-- Nothing is due where no byte is offered. -/
theorem due_of_no_byte (hh : s.phase ≠ .hdr) (hb : s.currentByte = none) : s.due = none := by
  have hw : s.wireByte = none := by
    unfold State.wireByte; split
    · contradiction
    · simp [hb]
  simp [State.due, hw]

/-- XVAL's byte is put together again from its two low bits. -/
theorem xvalByte_of_pattern (h : b.extractLsb' 2 6 = 0b010111#6) : xvalByte (b.extractLsb' 0 2) = b := by
  unfold xvalByte
  rw [← h]
  ext j hj
  simp only [BitVec.getElem_append, BitVec.getElem_extractLsb']
  split
  · simp [BitVec.getLsbD_eq_getElem hj]
  · rename_i h2
    have : 2 + (j - 2) = j := by omega
    simp [this, BitVec.getLsbD_eq_getElem hj]

end Sys2Proof.Machine
end

