-- ==== Sys2Proof/Laws/Step.lean ====
section
/-! SUPPORT. What a step can do, said once: each kind of edge, and the inversion of `step`. -/

namespace Sys2Proof.Machine

variable {s t : State} {i : Instr} {b : Byte}

theorem exec_due_hdr (hp : s.phase = .hdr) (hr : s.levels.txReady = true) :
    exec .hdr s = .next (s.txWrite s.headerWrites Config.header) := by
  simp only [exec, execHdr, writeSymbol_of_due (due_of_hdr hp) hr]

/-- The instruction fetched for a current byte runs as the writing step of that byte. -/
theorem exec_due_currentByte (hh : s.phase ≠ .hdr) (hb : s.currentByte = some b) (hr : s.levels.txReady = true)
    (hi : s.due = some i) :
    exec i s = .next (if escapeFirst b s.esc then s.txWrite s.escapeWrites Config.escape
      else s.txWrite (s.valueWrites (xf b)) (xf b)) := by
  have hd := due_of_currentByte hh hb
  rw [hi] at hd
  have hd := Option.some.inj hd
  by_cases he : escapeFirst b s.esc
  · rw [if_pos he] at hd; subst hd
    simp only [exec, execEsc, writeSymbol_of_due hi hr, if_pos he]
  · rw [if_neg he] at hd
    by_cases hx : s.esc = true ∧ (xf b).extractLsb' 2 6 = 0b010111#6
    · rw [if_pos hx] at hd; subst hd
      simp only [exec, execXval, writeSymbol_of_due hi hr, if_neg he, xvalByte_of_pattern hx.2]
    · rw [if_neg hx] at hd; subst hd
      simp only [exec, execLit, writeSymbol_of_due hi hr, if_neg he]

/-- RESET, first of all priorities (70_reset_and_hazards.md R200). -/
theorem step_reset (hl : s.live = true) (hw : s.hostTurn = .wait) (hr : s.levels.rst = true) :
    step s = .next s.resetWrites.advance := by simp [step, hl, hw, hr]

/-- The first RESET after power-up. -/
theorem step_first_reset (hl : s.live = false) (hr : s.rawPins.rst = true) : step s = .next s.resetWrites.advance := by
  simp [step, hl, hr]

theorem step_before_reset (hl : s.live = false) (hr : s.rawPins.rst = false) : step s = .refused .beforeFirstReset := by
  simp [step, hl, hr]

/-- An ordinary edge is the fetched instruction's step, HOLD, or the missing register. -/
theorem step_of_ordinaryEdge (h : s.ordinaryEdge) :
    step s = match s.fetch with
      | .instr i => afterEdge (exec i s.takeLine)
      | .hold => .next s.advance
      | .noByte => .fault .noSuchPayloadByte := by
  obtain ⟨hl, hw, hr⟩ := h
  rw [step, if_pos hl, hw]
  exact if_neg (by simp [hr])

/-- An ordinary edge in HDR (41_frame_encoder.md R122, R127). -/
theorem step_hdr (h : s.ordinaryEdge) (hp : s.phase = .hdr) :
    step s = .next (if s.levels.txReady then s.txWrite s.headerWrites Config.header else s).advance := by
  rw [step_of_ordinaryEdge h]
  rcases hr : s.levels.txReady with _ | _
  · simp [State.fetch, hp, hr]
  · simp [State.fetch, hp, hr, due_of_hdr hp, takeLine_of_not_idle (s := s) (by simp [hp]), exec_due_hdr hp hr, afterEdge]

/-- An ordinary edge in PAY or CSUM whose current byte exists (41_frame_encoder.md R123 to R127). -/
theorem step_currentByte (h : s.ordinaryEdge) (hb : s.currentByte = some b) :
    step s = .next (if s.levels.txReady then
      (if escapeFirst b s.esc then s.txWrite s.escapeWrites Config.escape else s.txWrite (s.valueWrites (xf b)) (xf b))
      else s).advance := by
  have hp : s.phase = .pay ∨ s.phase = .csum := by
    unfold State.currentByte at hb
    split at hb <;> simp_all
  have hh : s.phase ≠ .hdr := by rcases hp with hp | hp <;> simp [hp]
  have hi : s.phase ≠ .idle := by rcases hp with hp | hp <;> simp [hp]
  rw [step_of_ordinaryEdge h]
  rcases hr : s.levels.txReady with _ | _
  · rcases hp with hp | hp <;> simp [State.fetch, hp, hr]
  · have hd := due_of_currentByte hh hb
    have hf : s.fetch = .instr (if escapeFirst b s.esc then .esc
      else if s.esc = true ∧ (xf b).extractLsb' 2 6 = 0b010111#6 then .xval ((xf b).extractLsb' 0 2)
      else .lit (xf b)) := by
      rcases hp with hp | hp <;> simp only [State.fetch, hp, hr, hd, if_true]
    rw [hf]
    simp only [takeLine_of_not_idle hi, exec_due_currentByte hh hb hr hd, afterEdge, if_true]

/-- An ordinary edge in PAY at an index that has no register. -/
theorem step_no_byte (h : s.ordinaryEdge) (hp : s.phase = .pay) (hb : s.currentByte = none) :
    step s = if s.levels.txReady then .fault .noSuchPayloadByte else .next s.advance := by
  rw [step_of_ordinaryEdge h]
  rcases hr : s.levels.txReady with _ | _
  · simp [State.fetch, hp, hr]
  · simp [State.fetch, hp, hr, due_of_no_byte (s := s) (by simp [hp]) hb]

/-- An ordinary edge in FAULT (60_exceptions.md R178). -/
theorem step_fault (h : s.ordinaryEdge) (hp : s.phase = .fault) : step s = .next s.advance := by
  rw [step_of_ordinaryEdge h]; simp [State.fetch, hp]

/-- An ordinary edge in IDLE (41_frame_encoder.md R121, R127). -/
theorem step_idle (h : s.ordinaryEdge) (hp : s.phase = .idle) :
    step s = if s.levels.cmdValid then
      afterEdge (exec (decodeCommand s.levels.cmd) { s with program := s.program.tail }) else .next s.advance := by
  rw [step_of_ordinaryEdge h]
  rcases hv : s.levels.cmdValid with _ | _
  · simp [State.fetch, hp, hv]
  · simp [State.fetch, hp, hv, takeLine_of_idle hp]

/-- A command in IDLE: loaded, or the fault entry (41_frame_encoder.md R121). -/
theorem exec_command_idle (w : CmdWires) (hp : s.phase = .idle) :
    (∃ p, pack (decodeCommand w) = .ok p ∧
      exec (decodeCommand w) s = .next ((s.record (decodeCommand w)).loadPayload p)) ∨
    (pack (decodeCommand w) = .error (.invalidDatatype w.dtype) ∧
      exec (decodeCommand w) s = .next ((s.record (decodeCommand w)).raise invalidDatatype)) := by
  unfold decodeCommand
  by_cases h0 : w.dtype = 0#3
  · exact .inl ⟨_, by simp only [h0, if_true]; rfl, by simp only [h0, if_true, exec, execVel, accept_of_idle hp]⟩
  by_cases h1 : w.dtype = 1#3
  · exact .inl ⟨_, by simp only [h1]; rfl, by simp [h1, exec, execRot, accept_of_idle hp]⟩
  by_cases h2 : w.dtype = 2#3
  · exact .inl ⟨_, by simp only [h2]; rfl, by simp [h2, exec, execKick, accept_of_idle hp]⟩
  by_cases h3 : w.dtype = 3#3
  · exact .inr ⟨by simp [h3, pack], by simp [h3, exec, execBad3, acceptIllegal_of_idle hp]⟩
  · refine .inr ⟨?_, by simp [h0, h1, h2, h3, exec, execBadHigh, acceptIllegal_of_idle hp]⟩
    simp only [h0, h1, h2, h3, if_false, pack]
    have : ∀ d : BitVec 3, d ≠ 0#3 → d ≠ 1#3 → d ≠ 2#3 → d ≠ 3#3 → (0b1#1 ++ d.extractLsb' 0 2 : BitVec 3) = d := by decide
    rw [this _ h0 h1 h2 h3]

/-! ### The inversion of a step -/

/-- Everything a step that answers a next state can be: the cases of 41_frame_encoder.md R120 and the host's two moves. -/
inductive StepTo (s : State) : State → Prop where
  /-- RESET. -/
  | reset (first : s.live = false → s.rawPins.rst = true) (later : s.live = true → s.hostTurn = .wait ∧ s.levels.rst = true) :
      StepTo s s.resetWrites.advance
  /-- The host expands TICK. -/
  | tick {x y th : BitVec 12} {calib : BitVec 13} {command : BitVec 5} {rest : List Line} (live : s.live = true)
      (idle : s.phase = .idle) (line : s.program = .tick x y th calib command :: rest) :
      StepTo s { s with program := tickLines x y th calib command ++ rest }
  /-- The scheduler moves. -/
  | sched {t : State} (live : s.live = true) (move : s.schedulerMove = some t) : StepTo s t
  /-- HOLD. -/
  | hold (edge : s.ordinaryEdge)
      (still : (s.phase = .idle ∧ s.levels.cmdValid = false) ∨ s.phase = .fault ∨ (s.txValid = true ∧ s.levels.txReady = false)) :
      StepTo s s.advance
  /-- ACCEPT of a valid command. -/
  | accept {p : List Byte} (edge : s.ordinaryEdge) (idle : s.phase = .idle) (valid : s.levels.cmdValid = true)
      (packs : pack (decodeCommand s.levels.cmd) = .ok p) :
      StepTo s ((State.record { s with program := s.program.tail } (decodeCommand s.levels.cmd)).loadPayload p).advance
  /-- ACCEPT of an illegal tag. -/
  | illegal (edge : s.ordinaryEdge) (idle : s.phase = .idle) (valid : s.levels.cmdValid = true)
      (bad : pack (decodeCommand s.levels.cmd) = .error (.invalidDatatype s.levels.cmd.dtype)) :
      StepTo s ((State.record { s with program := s.program.tail } (decodeCommand s.levels.cmd)).raise invalidDatatype).advance
  /-- HDR. -/
  | hdr (edge : s.ordinaryEdge) (phase : s.phase = .hdr) (ready : s.levels.txReady = true) :
      StepTo s (s.txWrite s.headerWrites Config.header).advance
  /-- PAYB-ESC and CSB-ESC. -/
  | esc {b : Byte} (edge : s.ordinaryEdge) (phase : s.phase = .pay ∨ s.phase = .csum) (current : s.currentByte = some b)
      (ready : s.levels.txReady = true) (first : escapeFirst b s.esc = true) :
      StepTo s (s.txWrite s.escapeWrites Config.escape).advance
  /-- PAYB-VAL. -/
  | payValue {b : Byte} (edge : s.ordinaryEdge) (phase : s.phase = .pay) (current : s.currentByte = some b)
      (ready : s.levels.txReady = true) (first : escapeFirst b s.esc = false) :
      StepTo s (s.txWrite (s.payloadWrites (xf b)) (xf b)).advance
  /-- CSB-VAL. -/
  | csumValue (edge : s.ordinaryEdge) (phase : s.phase = .csum) (ready : s.levels.txReady = true)
      (first : escapeFirst s.acc s.esc = false) :
      StepTo s (s.txWrite s.checksumWrites (xf s.acc)).advance

theorem currentByte_of_csum (h : s.phase = .csum) : s.currentByte = some s.acc := by simp [State.currentByte, h]

theorem currentByte_of_pay (h : s.phase = .pay) : s.currentByte = s.pb.get s.idx := by simp [State.currentByte, h]

theorem hostTurn_tick {x y th : BitVec 12} {calib : BitVec 13} {command : BitVec 5} {rest : List Line}
    (hp : s.phase = .idle) (hl : s.program = .tick x y th calib command :: rest) :
    s.hostTurn = .pseudo (.tick x y th calib command) := by
  simp [State.hostTurn, hp, hl]

/-- The host's turn is TICK's line in IDLE, or the scheduler's move, or nothing. -/
theorem hostTurn_cases (s : State) :
    (∃ x y th calib command rest, s.phase = .idle ∧ s.program = .tick x y th calib command :: rest ∧
      s.hostTurn = .pseudo (.tick x y th calib command)) ∨
    (∃ t, s.schedulerMove = some t ∧ s.hostTurn = .moved t) ∨ (s.schedulerMove = none ∧ s.hostTurn = .wait) := by
  unfold State.hostTurn
  split
  · rename_i h1 h2
    exact .inl ⟨_, _, _, _, _, _, h2, h1, rfl⟩
  · rcases h : s.schedulerMove with _ | t
    · exact .inr (.inr ⟨rfl, rfl⟩)
    · exact .inr (.inl ⟨t, rfl, rfl⟩)

/-- A frame in progress leaves the host no move. -/
theorem hostTurn_of_busy (h : s.phase = .hdr ∨ s.phase = .pay ∨ s.phase = .csum) : s.hostTurn = .wait := by
  have hm : s.schedulerMove = none := by
    unfold State.schedulerMove
    split
    · rfl
    · rcases h with h | h | h <;> simp [h]
  rcases hostTurn_cases s with ⟨_, _, _, _, _, _, hi, -, -⟩ | ⟨t, ht, -⟩ | ⟨-, h'⟩
  · rcases h with h | h | h <;> simp [h] at hi
  · simp [hm] at ht
  · exact h'

/-- An ordinary edge answers one of the cases, or stops at an index without a register. -/
theorem ordinaryEdge_cases (h : s.ordinaryEdge) :
    (∃ t, step s = .next t ∧ StepTo s t) ∨
    (s.phase = .pay ∧ s.currentByte = none ∧ s.levels.txReady = true ∧ step s = .fault .noSuchPayloadByte) := by
  rcases hp : s.phase with _ | _ | _ | _ | _
  · rcases hv : s.levels.cmdValid with _ | _
    · exact .inl ⟨_, by rw [step_idle h hp, hv]; rfl, .hold h (.inl ⟨hp, hv⟩)⟩
    · have hs := step_idle h hp
      rw [hv, if_pos rfl] at hs
      rcases exec_command_idle (s := { s with program := s.program.tail }) s.levels.cmd hp with ⟨p, h1, h2⟩ | ⟨h1, h2⟩
      · exact .inl ⟨_, by rw [hs, h2]; rfl, .accept h hp hv h1⟩
      · exact .inl ⟨_, by rw [hs, h2]; rfl, .illegal h hp hv h1⟩
  · rcases hr : s.levels.txReady with _ | _
    · exact .inl ⟨_, by rw [step_hdr h hp, hr]; rfl, .hold h (.inr (.inr ⟨by simp [State.txValid, hp], hr⟩))⟩
    · exact .inl ⟨_, by rw [step_hdr h hp, hr]; rfl, .hdr h hp hr⟩
  · rcases hb : s.currentByte with _ | b
    · rcases hr : s.levels.txReady with _ | _
      · exact .inl ⟨_, by rw [step_no_byte h hp hb, hr]; rfl, .hold h (.inr (.inr ⟨by simp [State.txValid, hp], hr⟩))⟩
      · exact .inr ⟨rfl, rfl, rfl, by rw [step_no_byte h hp hb, hr]; rfl⟩
    · rcases hr : s.levels.txReady with _ | _
      · exact .inl ⟨_, by rw [step_currentByte h hb, hr]; rfl, .hold h (.inr (.inr ⟨by simp [State.txValid, hp], hr⟩))⟩
      · rcases he : escapeFirst b s.esc with _ | _
        · exact .inl ⟨_, by rw [step_currentByte h hb, hr, he]; simp [valueWrites_of_pay hp], .payValue h hp hb hr he⟩
        · exact .inl ⟨_, by rw [step_currentByte h hb, hr, he]; rfl, .esc h (.inl hp) hb hr he⟩
  · have hb := currentByte_of_csum hp
    rcases hr : s.levels.txReady with _ | _
    · exact .inl ⟨_, by rw [step_currentByte h hb, hr]; rfl, .hold h (.inr (.inr ⟨by simp [State.txValid, hp], hr⟩))⟩
    · rcases he : escapeFirst s.acc s.esc with _ | _
      · exact .inl ⟨_, by rw [step_currentByte h hb, hr, he]; simp [valueWrites_of_csum hp], .csumValue h hp hr he⟩
      · exact .inl ⟨_, by rw [step_currentByte h hb, hr, he]; rfl, .esc h (.inr hp) hb hr he⟩
  · exact .inl ⟨_, step_fault h hp, .hold h (.inr (.inl hp))⟩

/-- What a step of any state is: a next state by one of the cases, the missing register, or a step before the first reset. -/
theorem step_all_cases (s : State) :
    (∃ t, step s = .next t ∧ StepTo s t) ∨
    (s.ordinaryEdge ∧ s.phase = .pay ∧ s.currentByte = none ∧ s.levels.txReady = true ∧ step s = .fault .noSuchPayloadByte) ∨
    (s.live = false ∧ s.rawPins.rst = false ∧ step s = .refused .beforeFirstReset) := by
  rcases hl : s.live with _ | _
  · rcases hr : s.rawPins.rst with _ | _
    · exact .inr (.inr ⟨rfl, rfl, by simp [step, hl, hr]⟩)
    · exact .inl ⟨_, by simp only [step, hl, hr]; rfl, .reset (fun _ => hr) (by simp [hl])⟩
  · rcases hostTurn_cases s with ⟨x, y, th, c, k, rest, hp, hg, ht⟩ | ⟨t, hm, ht⟩ | ⟨-, ht⟩
    · exact .inl ⟨_, by simp [step, hl, ht, takeLine_of_idle hp, hg, exec, execTick], .tick hl hp hg⟩
    · exact .inl ⟨t, by simp [step, hl, ht], .sched hl hm⟩
    · rcases hr : s.levels.rst with _ | _
      · rcases ordinaryEdge_cases ⟨hl, ht, hr⟩ with h | h
        · exact .inl h
        · exact .inr (.inl ⟨⟨hl, ht, hr⟩, h⟩)
      · exact .inl ⟨_, by simp only [step, hl, ht, hr]; rfl, .reset (by simp [hl]) (fun _ => ⟨ht, hr⟩)⟩

/-- The inversion lemma: a step that answers a next state is one of the cases. -/
theorem step_next_cases (h : step s = .next t) : StepTo s t := by
  rcases step_all_cases s with ⟨u, hu, hc⟩ | ⟨-, -, -, -, hf⟩ | ⟨-, -, hf⟩
  · rw [hu] at h; cases h; exact hc
  · rw [hf] at h; cases h
  · rw [hf] at h; cases h

end Sys2Proof.Machine
end

