-- ==== Sys2Proof/Laws/Sched.lean ====
section
/-! SUPPORT. What DOC0's scheduler does as a host, said once: its moves, and that it offers nothing once stopped. -/

namespace Sys2Proof.Machine

variable {s t : State} {g : Scheduler}

/-! ### The scheduler's move -/

/-- A scheduler that does not run makes no move (42_host_scheduler.md R157). -/
theorem schedulerMove_of_not_hosted (h : s.hosted = false) : s.schedulerMove = none := by
  unfold State.schedulerMove
  split
  · rfl
  · rename_i g hg
    rw [hosted_some hg] at h
    simp [h]

/-- Everything a move of the scheduler is: the stop in FAULT, or its tick going on in IDLE with no line left. -/
theorem schedulerMove_cases (h : s.schedulerMove = some t) :
    ∃ g, s.sched = some g ∧ g.running = true ∧
      ((s.phase = .fault ∧ t = { s with program := [], sched := some g.stopOnFault }) ∨
       (s.phase = .idle ∧ s.program = [] ∧ s.tickMove g = some t)) := by
  unfold State.schedulerMove at h
  split at h
  · simp at h
  · rename_i g hg
    split_ifs at h with hr hf hi
    · exact ⟨g, hg, hr, .inl ⟨hf, by simpa using h.symm⟩⟩
    · exact ⟨g, hg, hr, .inr ⟨hi.1, hi.2, h⟩⟩

/-- Everything the tick's next move can be, in the order of its stages (42_host_scheduler.md R144). -/
theorem tickMove_cases (h : s.tickMove g = some t) :
    (g.stage = .start ∧ t = { s with program := [drawnTick s.edge], sched := some { g with stage := .frames } }) ∨
    (g.stage = .frames ∧ t = { s with sched := some (g.measure Config.exactPeriod (Config.elapsedMicros s.edge)) }) ∨
    (g.stage = .suspended ∧ Config.sleepOver s.edge = true ∧ t = { s with sched := some g.wake }) ∨
    (g.stage = .boundary ∧ t = { s with sched := some (g.endTick (Config.cancelSignal s.edge)) }) := by
  unfold State.tickMove at h
  rcases hs : g.stage with _ | _ | _ | _ <;> simp only [hs] at h
  · exact .inl ⟨rfl, (Option.some.inj h).symm⟩
  · exact .inr (.inl ⟨rfl, (Option.some.inj h).symm⟩)
  · split_ifs at h with hw
    exact .inr (.inr (.inl ⟨rfl, hw, (Option.some.inj h).symm⟩))
  · exact .inr (.inr (.inr ⟨rfl, (Option.some.inj h).symm⟩))

/-- A move of the scheduler leaves the block and both streams as they are (42_host_scheduler.md, opening paragraph). -/
theorem schedulerMove_block (h : s.schedulerMove = some t) :
    t = { s with program := t.program, sched := t.sched } := by
  obtain ⟨g, -, -, ⟨-, rfl⟩ | ⟨-, -, hm⟩⟩ := schedulerMove_cases h
  · rfl
  · obtain ⟨-, rfl⟩ | ⟨-, rfl⟩ | ⟨-, -, rfl⟩ | ⟨-, rfl⟩ := tickMove_cases hm <;> rfl

/-! ### Stopped -/

/-- A stopped scheduler offers nothing (42_host_scheduler.md R154, R157). -/
theorem cmdValid_of_stopped (hs : s.sched = some g) (hr : g.running = false) : s.levels.cmdValid = false := by
  rw [cmdValid_some hs, hr]; rfl

/-- The host after a transport write is the host before it. -/
theorem txWrite_host (s done : State) (b : Byte) (h1 : done.sched = s.sched) (h2 : done.accepted = s.accepted) :
    (s.txWrite done b).sched = s.sched ∧ (s.txWrite done b).accepted = s.accepted := by
  obtain ⟨-, e⟩ | ⟨-, e | e⟩ := txWrite_cases s done b <;> simp [e, h1, h2]

/-- Under a stopped scheduler a step accepts nothing, and the scheduler stays as it is (42_host_scheduler.md R154). -/
theorem step_stopped (hs : s.sched = some g) (hr : g.running = false) (h : step s = .next t) :
    t.sched = some g ∧ t.accepted = s.accepted := by
  have hv := cmdValid_of_stopped hs hr
  rw [← hs]
  cases step_next_cases h with
  | reset => exact ⟨rfl, rfl⟩
  | tick => exact ⟨rfl, rfl⟩
  | sched _ hm =>
    rw [schedulerMove_of_not_hosted (by rw [hosted_some hs, hr])] at hm; cases hm
  | hold => exact ⟨rfl, rfl⟩
  | accept _ _ hv' => rw [hv] at hv'; cases hv'
  | illegal _ _ hv' => rw [hv] at hv'; cases hv'
  | hdr => exact txWrite_host _ _ _ rfl rfl
  | esc => exact txWrite_host _ _ _ rfl rfl
  | payValue => exact txWrite_host _ _ _ rfl rfl
  | csumValue => exact txWrite_host _ _ _ rfl rfl

/-- Under a stopped scheduler the block stays in IDLE. -/
theorem step_stopped_idle (hs : s.sched = some g) (hr : g.running = false) (hp : s.phase = .idle) (hc : s.fcode = 0)
    (h : step s = .next t) : t.phase = .idle ∧ t.fcode = 0 := by
  have hv := cmdValid_of_stopped hs hr
  cases step_next_cases h with
  | reset => exact ⟨rfl, rfl⟩
  | tick => exact ⟨hp, hc⟩
  | sched _ hm => rw [schedulerMove_of_not_hosted (by rw [hosted_some hs, hr])] at hm; cases hm
  | hold => exact ⟨hp, hc⟩
  | accept _ _ hv' => rw [hv] at hv'; cases hv'
  | illegal _ _ hv' => rw [hv] at hv'; cases hv'
  | hdr _ hp' => rw [hp] at hp'; cases hp'
  | esc _ hp' => simp [hp] at hp'
  | payValue _ hp' => rw [hp] at hp'; cases hp'
  | csumValue _ hp' => rw [hp] at hp'; cases hp'

end Sys2Proof.Machine
end

