-- ==== Sys2Proof/Laws/Frame.lean ====
section
/-! SUPPORT. The small lemmas of the frame function and of the payload in the buffer. -/

namespace Sys2Proof.Machine

variable {s : State} {b : Byte} {p q : List Byte}

/-! ### The checksum -/

@[simp] theorem sumFrom_nil (a : Byte) : sumFrom a [] = a := rfl

@[simp] theorem sumFrom_cons (a b : Byte) (p : List Byte) : sumFrom a (b :: p) = sumFrom (a + xf b) p := rfl

theorem sumFrom_append (a : Byte) (p q : List Byte) : sumFrom a (p ++ q) = sumFrom (sumFrom a p) q := by
  simp [sumFrom, List.foldl_append]

@[simp] theorem csum_nil : csum [] = Config.header := rfl

/-- One more payload byte adds its transmitted value (41_frame_encoder.md R124). -/
theorem csum_append_singleton (p : List Byte) (b : Byte) : csum (p ++ [b]) = csum p + xf b := by
  simp [csum, sumFrom_append]

/-! ### Stuffing -/

theorem stuff_of_collide (h : collide b = true) : stuff b = [Config.escape, xf b] := by simp [stuff, h]

theorem stuff_of_not_collide (h : collide b = false) : stuff b = [b] := by simp [stuff, h]

theorem stuff_ne_nil (b : Byte) : stuff b ≠ [] := by unfold stuff; split <;> simp

theorem length_stuff (b : Byte) : (stuff b).length = 1 + if collide b then 1 else 0 := by
  rcases h : collide b <;> simp [stuff, h]

theorem length_flatMap_stuff (p : List Byte) : (p.flatMap stuff).length = p.length + p.countP collide := by
  induction p with
  | nil => rfl
  | cons b p ih =>
    simp only [List.flatMap_cons, List.length_append, ih, length_stuff, List.countP_cons, List.length_cons]; omega

theorem header_not_mem_stuff (b : Byte) : Config.header ∉ stuff b := by
  rcases h : collide b with _ | _
  · simp only [stuff, h, Bool.false_eq_true, if_false, List.mem_singleton]; rintro rfl; revert h; decide
  · simp only [stuff, h, if_true, List.mem_cons, List.not_mem_nil, or_false, not_or]
    exact ⟨by decide, fun e => xf_ne_header b e.symm⟩

/-- A reader undoes the stuffing of one byte (30_encoding.md R70). -/
theorem unstuff_stuff_cons (b : Byte) (l : List Byte) : unstuff (stuff b ++ l) = (unstuff l).map (b :: ·) := by
  rcases h : collide b with _ | _
  · have h1 : b ≠ Config.header := by rintro rfl; revert h; decide
    have h2 : b ≠ Config.escape := by rintro rfl; revert h; decide
    rcases l with _ | ⟨v, l⟩
    · simp [stuff, h, unstuff]
    · simp [stuff, h, unstuff, h1, h2]
  · have h3 : Config.escape ≠ Config.header := by decide
    rcases (collide_iff b).1 h with rfl | rfl
    · have : xf Config.header = 0x5D#8 := by decide
      have e : (0x5D#8 ^^^ Config.escapeMask) = Config.header := by decide
      simp [stuff, h, unstuff, this, h3, e]
    · have : xf Config.escape = 0x5E#8 := by decide
      have e : (0x5E#8 ^^^ Config.escapeMask) = Config.escape := by decide
      simp [stuff, h, unstuff, this, h3, e]

theorem unstuff_flatMap_stuff (p l : List Byte) : unstuff (p.flatMap stuff ++ l) = (unstuff l).map (p ++ ·) := by
  induction p with
  | nil => simp
  | cons b p ih => simp [List.flatMap_cons, List.append_assoc, unstuff_stuff_cons, ih]; cases unstuff l <;> simp

/-- What is left to write for a byte, whether or not its escape byte has been written. -/
theorem stuff_rest (b : Byte) (esc : Bool) (h : esc = true → collide b = true) :
    (stuff b).drop (if esc then 1 else 0) = if escapeFirst b esc then [Config.escape, xf b] else [xf b] := by
  rcases hc : collide b with _ | _
  · have he : esc = false := by
      rcases esc with _ | _
      · rfl
      · simp [hc] at h
    subst he
    simp [stuff, hc, escapeFirst, xf_of_not_collide hc]
  · rcases esc with _ | _ <;> simp [stuff, hc, escapeFirst]

/-! ### The payload in the buffer -/

@[simp] theorem PayloadBuffer.length_toList (pb : PayloadBuffer) : pb.toList.length = 5 := rfl

theorem PayloadBuffer.get_eq_getElem? (pb : PayloadBuffer) (k : BitVec 3) : pb.get k = pb.toList[k.toNat]? := rfl

/-- There is no register of index 5 or above (10_state.md R21). -/
theorem PayloadBuffer.get_eq_none_iff (pb : PayloadBuffer) (k : BitVec 3) : pb.get k = none ↔ 5#3 ≤ k := by
  rw [PayloadBuffer.get_eq_getElem?, List.getElem?_eq_none_iff, PayloadBuffer.length_toList, BitVec.le_def]
  rfl

/-- A payload of at most five bytes is what the buffer then holds (41_frame_encoder.md R121). -/
theorem PayloadBuffer.take_load (h : p.length ≤ 5) : (PayloadBuffer.load p).toList.take p.length = p := by
  match p, h with
  | [], _ => rfl
  | [_], _ => rfl
  | [_, _], _ => rfl
  | [_, _, _], _ => rfl
  | [_, _, _, _], _ => rfl
  | [_, _, _, _, _], _ => rfl
  | _ :: _ :: _ :: _ :: _ :: _ :: _, h => simp at h; omega

theorem length_payload (h : s.plen ≤ 5#3) : s.payload.length = s.plen.toNat := by
  have : s.plen.toNat ≤ 5 := h
  simp [State.payload, this]

/-- The payload byte at an index below the length is the register's (10_state.md R21). -/
theorem payload_getElem? (hi : s.idx < s.plen) : s.payload[s.idx.toNat]? = s.pb.get s.idx := by
  have : s.idx.toNat < s.plen.toNat := hi
  simp [State.payload, PayloadBuffer.get, this]

/-- A payload the packer gives has 5, 2 or 1 bytes (00_scope.md R6). -/
theorem length_of_pack {i : Instr} (h : pack i = .ok p) : p.length = 5 ∨ p.length = 2 ∨ p.length = 1 := by
  cases i with
  | vel x y th => left; simp only [pack, Except.ok.injEq] at h; subst h; rfl
  | rot c => right; left; simp only [pack, Except.ok.injEq] at h; subst h; rfl
  | kick c => right; right; simp only [pack, Except.ok.injEq] at h; subst h; rfl
  | bad3 => simp [pack] at h
  | badHigh g => simp [pack] at h
  | hdr => simp [pack] at h
  | esc => simp [pack] at h
  | xval v => simp [pack] at h
  | lit b => simp [pack] at h
  | tick x y th c k => simp [pack] at h

theorem length_le_of_pack {i : Instr} (h : pack i = .ok p) : p.length ≤ 5 := by
  rcases length_of_pack h with h | h | h <;> omega

/-- The payload after an accept is the packed payload. -/
theorem payload_loadPayload (s : State) (h : p.length ≤ 5) : (s.loadPayload p).payload = p := by
  have : p.length % 8 = p.length := Nat.mod_eq_of_lt (by omega)
  simp [State.payload, this, PayloadBuffer.take_load h]

end Sys2Proof.Machine
end

