-- ==== Sys2Proof/Laws/Invariant.lean ====
section
/-! SUPPORT. The invariant of 10_state.md R35: what it depends on, and the states in which it holds at once. -/

namespace Sys2Proof.Machine

variable {s t : State}

/-- The invariant reads only these elements. -/
theorem inv_congr (hi : Inv s) (h1 : t.pb = s.pb) (h2 : t.plen = s.plen) (h3 : t.phase = s.phase) (h4 : t.idx = s.idx)
    (h5 : t.esc = s.esc) (h6 : t.acc = s.acc) (h7 : t.fcode = s.fcode) (h8 : t.accepted = s.accepted) : Inv t := by
  have hp : t.payload = s.payload := by simp [State.payload, h1, h2]
  have hs : t.summed = s.summed := by simp [State.summed, h3, hp, h4]
  have hf : t.inFrame ↔ s.inFrame := by simp [State.inFrame, h3]
  have hc : t.currentByte = s.currentByte := by simp [State.currentByte, h3, h1, h4, h6]
  obtain ⟨a, b, c, d, e, f, g, h⟩ := hi
  exact ⟨by rw [hf, h2]; exact a, by rw [hf, h8, hp]; exact b, by rw [h3, h4, h2]; exact c, by rw [h3, h4, h5]; exact d,
    by rw [h5, hc]; exact e, by rw [h3, h6, hs]; exact f, by rw [h3, h7]; exact g, by rw [h7]; exact h⟩

/-- After a fault entry it holds (60_exceptions.md R174, R175). -/
theorem inv_fault (hp : t.phase = .fault) (hc : t.fcode = 1 ∨ t.fcode = 2) : Inv t := by
  refine ⟨?_, ?_, ?_, ?_, ?_, ?_, ?_, ?_⟩
  · simp [State.inFrame, hp]
  · simp [State.inFrame, hp]
  · simp [hp]
  · simp [hp]
  · simp [State.currentByte, hp]
  · simp [hp]
  · rcases hc with h | h <;> simp [hp, h]
  · rcases hc with h | h <;> simp [h]

/-- In IDLE without a fault code it holds. -/
theorem inv_idle (hp : t.phase = .idle) (hc : t.fcode = 0) : Inv t := by
  refine ⟨?_, ?_, ?_, ?_, ?_, ?_, ?_, ?_⟩
  · simp [State.inFrame, hp]
  · simp [State.inFrame, hp]
  · simp [hp]
  · simp [hp]
  · simp [State.currentByte, hp]
  · simp [hp]
  · simp [hp, hc]
  · simp [hc]

/-- A writing step has it if its own writes have it. -/
theorem inv_txWrite (s done : State) (b : Byte) (hd : Inv done) : Inv (s.txWrite done b).advance := by
  rcases txWrite_cases s done b with ⟨_, e⟩ | ⟨_, e | e⟩
  · rw [e]; exact inv_congr hd rfl rfl rfl rfl rfl rfl rfl rfl
  · rw [e]; exact inv_fault rfl (.inr rfl)
  · rw [e]; exact inv_fault rfl (.inr rfl)

/-- Outside FAULT the code is 0 (R35 (f)). -/
theorem fcode_of_inv (hi : Inv s) (h : s.phase ≠ .fault) : s.fcode = 0 := by
  by_contra hc; exact h (hi.faultHasCode.2 hc)

end Sys2Proof.Machine
end

