-- ==== Sys2Proof/Laws/PerInstr.lean ====
section
/-! SUPPORT. One lemma per instruction: the packer's formulas (40_packer.md R91 to R94) give exactly the payload that the layout
tables (30_encoding.md R61 to R63) encode, for the valid commands and for nothing else. -/

namespace Sys2Proof.Laws.PacksAsEncoded

open Sys2Proof.Machine

/-- A valid command packs to its own encoding; anything else does not pack. -/
def Statement (i : Instr) : Prop :=
  if validCommand i then ∃ p, pack i = .ok p ∧ encode i = .payload p else ∃ e, pack i = .error e

theorem vel (x y th : BitVec 12) : Statement (.vel x y th) :=
  ⟨_, rfl, congrArg Code.payload (packVelocity_eq_encode x y th).symm⟩

theorem rot (calib : BitVec 13) : Statement (.rot calib) := ⟨_, rfl, congrArg Code.payload (packRotation_eq_encode calib).symm⟩

theorem kick (command : BitVec 5) : Statement (.kick command) :=
  ⟨_, rfl, congrArg Code.payload (packKicker_eq_encode command).symm⟩

theorem bad3 : Statement .bad3 := ⟨_, rfl⟩

theorem badHigh (g : BitVec 2) : Statement (.badHigh g) := ⟨_, rfl⟩

theorem hdr : Statement .hdr := ⟨_, rfl⟩

theorem esc : Statement .esc := ⟨_, rfl⟩

theorem xval (v : BitVec 2) : Statement (.xval v) := ⟨_, rfl⟩

theorem lit (b : Byte) : Statement (.lit b) := ⟨_, rfl⟩

theorem tick (x y th : BitVec 12) (calib : BitVec 13) (command : BitVec 5) : Statement (.tick x y th calib command) := ⟨_, rfl⟩

end Sys2Proof.Laws.PacksAsEncoded
end

