-- ==== Sys2Proof/Laws/Run.lean ====
section
/-! SUPPORT. Runs over scripted edges, and what a writing edge does to the bytes still to be written. -/

namespace Sys2Proof.Machine

variable {s t : State} {b : Byte} {q : Pins} {qs rest : List Pins}

/-! ### Runs -/

@[simp] theorem runFor_zero (s : State) : runFor 0 s = .next s := rfl

theorem runFor_succ {n : Nat} (h : step s = .next t) : runFor (n + 1) s = runFor n t := by
  simp only [runFor, h]

theorem runFor_one (h : step s = .next t) : runFor 1 s = .next t := by rw [runFor_succ h, runFor_zero]

/-- A run in two parts. -/
theorem runFor_add {m n : Nat} (h : runFor m s = .next t) : runFor (m + n) s = runFor n t := by
  induction m generalizing s with
  | zero => cases h; rw [Nat.zero_add]
  | succ m ih =>
    rcases hs : step s with u | r | r
    · rw [runFor_succ hs] at h; rw [Nat.succ_add, runFor_succ hs, ih h]
    · simp [runFor, hs] at h
    · simp [runFor, hs] at h

/-- It is the host's run of the machine. -/
theorem runFor_eq_core_run (n : Nat) (s : State) : Host.Core.run core n s = runFor n s := by
  induction n generalizing s with
  | zero => rfl
  | succ n ih =>
    rcases hs : step s with u | r | r
    · rw [runFor_succ hs, ← ih u]
      have hs' : core.step s = .next u := hs
      simp only [Host.Core.run, hs']
    · have hs' : core.step s = .fault r := hs
      simp only [Host.Core.run, hs', runFor, hs]; rfl
    · have hs' : core.step s = .refused r := hs
      simp only [Host.Core.run, hs', runFor, hs]; rfl

/-- A run under a stopped scheduler in IDLE has ended well (70_reset_and_hazards.md R213, 42_host_scheduler.md R154). -/
theorem endedWell_of_stopped {g : Scheduler} (hs : s.sched = some g) (hr : g.running = false) (hp : s.phase = .idle)
    (hc : s.fcode = 0) : s.endedWell := by
  intro n t h
  induction n generalizing s with
  | zero => cases h; exact ⟨hp, hc, cmdValid_of_stopped hs hr⟩
  | succ n ih =>
    rcases hst : step s with u | r | r
    · rw [runFor_succ hst] at h
      obtain ⟨hp', hc'⟩ := step_stopped_idle hs hr hp hc hst
      exact ih (step_stopped hs hr hst).1 hp' hc' h
    · simp [runFor, hst] at h
    · simp [runFor, hst] at h

/-- After the first reset, an edge without `rst` is no RESET step. -/
theorem not_resetEdge (hl : s.live = true) (hr : s.levels.rst = false) : ¬ s.resetEdge := by
  rintro (⟨h, -⟩ | ⟨-, -, h⟩)
  · rw [hl] at h; cases h
  · rw [hr] at h; cases h

/-! ### A scripted edge inside a frame -/

/-- At an undisturbed edge the transport's answer is its `tx_ready`; an error counts only with it (60_exceptions.md R177). -/
theorem busy_edge (hl : s.live = true) (hp : s.inFrame) (h : s.pins = q :: rest) (hq : undisturbed q = true) :
    s.ordinaryEdge ∧ s.levels.txReady = q.txReady ∧ (q.txReady = true → s.levels.txErr = false) := by
  have hr := rawPins_cons h
  simp only [undisturbed, Bool.and_eq_true, Bool.not_eq_true', Bool.and_eq_false_imp] at hq
  refine ⟨⟨hl, hostTurn_of_busy hp, by simp [levels_rst, hr, hq.1]⟩, by rw [levels_txReady, hr], fun hq' => ?_⟩
  rw [levels_txErr, hr, hq.2 hq']

/-- A state inside the frame of the payload in its buffer: what 10_state.md R35 (b) to (e) say, without the packer. -/
structure Framing (s : State) : Prop where
  inFrame : s.inFrame
  short : s.plen.toNat ≤ 5
  idxInside : s.phase = .pay → s.idx < s.plen
  headerFresh : s.phase = .hdr → s.idx = 0 ∧ s.esc = false
  escCollides : s.esc = true → ∀ b, s.currentByte = some b → collide b = true
  accSums : s.phase = .pay ∨ s.phase = .csum → s.acc = csum s.summed

/-- The invariant of 10_state.md R35 says it of a frame in progress. -/
theorem framing_of_inv (h : Inv s) (hf : s.inFrame) : Framing s :=
  ⟨hf, by rcases h.plenLegal hf with e | e | e <;> simp [e], h.idxInside, h.headerFresh, h.escCollides, h.accSums⟩

/-- `idx` has reached the payload length once the payload is written (10_state.md R24). -/
def IdxAtEnd (s : State) : Prop := s.phase = .csum ∨ s.phase = .idle → s.plen ≠ 0 → s.idx = s.plen

/-- In PAY the current byte exists, and it is the payload's byte at `idx`. -/
theorem Framing.current (h : Framing s) (hp : s.phase = .pay) :
    ∃ b, s.currentByte = some b ∧ s.payload.drop s.idx.toNat = b :: s.payload.drop (s.idx.toNat + 1) := by
  have hi := h.idxInside hp
  have hlt : s.idx.toNat < s.payload.length := by rw [length_payload h.short]; exact hi
  refine ⟨s.payload[s.idx.toNat], ?_, List.drop_eq_getElem_cons hlt⟩
  rw [currentByte_of_pay hp, ← payload_getElem? hi, List.getElem?_eq_getElem hlt]

/-- What a successful writing edge does inside a frame: the first byte still to be written joins the wire stream, and nothing else is
left different but the sequencer's own registers (41_frame_encoder.md R122 to R126). -/
structure Writes (s : State) (b : Byte) (t : State) : Prop where
  steps : step s = .next t
  offered : s.wireByte = some b
  written : t.wire = s.wire ++ [b]
  left : s.remaining = b :: t.remaining
  framing : t.phase ≠ .idle → Framing t
  ended : t.phase = .idle → t.acc = csum s.payload ∧ t.esc = false
  idxEnd : IdxAtEnd s → IdxAtEnd t
  pb : t.pb = s.pb
  plen : t.plen = s.plen
  fcode : t.fcode = s.fcode
  accepted : t.accepted = s.accepted
  program : t.program = s.program
  sched : t.sched = s.sched
  pins : t.pins = s.pins.tail
  live : t.live = s.live

theorem writes_hdr (h : Framing s) (ho : s.ordinaryEdge) (hw : s.writeSucceeds) (hp : s.phase = .hdr) :
    Writes s Config.header (s.headerWrites.deliver Config.header).advance := by
  obtain ⟨h0, he⟩ := h.headerFresh hp
  have hpay : (s.headerWrites.deliver Config.header).advance.payload = s.payload := rfl
  constructor <;> try rfl
  · rw [step_hdr ho hp, hw.1, if_pos rfl, txWrite_of_success hw.2]
  · simp [State.wireByte, hp]
  · by_cases hz : s.plen = 0#3
    · have hnil : s.payload = [] := by simp [State.payload, hz]
      simp [State.remaining, hp, hz, he, hnil, frame]
    · simp [State.remaining, hp, hz, he, h0, frame, hpay]
  · intro _
    by_cases hz : s.plen = 0#3
    · have hnil : s.payload = [] := by simp [State.payload, hz]
      refine ⟨.inr (.inr (by simp [hz])), h.short, by simp [hz], by simp [hz], by simp [he], ?_⟩
      intro _
      simp [State.summed, hz, hpay, hnil]
    · have hlt : s.idx < s.plen := by
        rw [h0]; show 0 < s.plen.toNat
        exact Nat.pos_of_ne_zero fun hc => hz (BitVec.eq_of_toNat_eq hc)
      exact ⟨.inr (.inl (by simp [hz])), h.short, fun _ => hlt, by simp [hz], by simp [he],
        by intro _; simp [State.summed, hz, h0]⟩
  · intro hi; simp at hi; split at hi <;> simp at hi
  · intro _ hc hz; simp at hc hz; simp [hz] at hc

theorem writes_esc (h : Framing s) (ho : s.ordinaryEdge) (hw : s.writeSucceeds) (hp : s.phase = .pay ∨ s.phase = .csum)
    (hb : s.currentByte = some b) (he : escapeFirst b s.esc = true) :
    Writes s Config.escape (s.escapeWrites.deliver Config.escape).advance := by
  have hh : s.phase ≠ .hdr := by rcases hp with hp | hp <;> simp [hp]
  have hc : collide b = true ∧ s.esc = false := by simpa [escapeFirst] using he
  have hpay : (s.escapeWrites.deliver Config.escape).advance.payload = s.payload := rfl
  constructor <;> try rfl
  · rw [step_currentByte ho hb, hw.1, if_pos rfl, if_pos he, txWrite_of_success hw.2]
  · unfold State.wireByte; split
    · contradiction
    · simp [hb, wireByteOf, he]
  · rcases hp with hp | hp
    · obtain ⟨b', hb', hd⟩ := h.current hp
      rw [hb] at hb'; cases hb'
      simp [State.remaining, hp, hc.2, hpay, hd, List.flatMap_cons, stuff_of_collide hc.1]
    · rw [currentByte_of_csum hp] at hb; cases hb
      simp [State.remaining, hp, hc.2, stuff_of_collide hc.1]
  · intro _
    refine ⟨h.inFrame, h.short, h.idxInside, ?_, ?_, h.accSums⟩
    · intro hp'; exact absurd hp' hh
    · intro _ b' hb'
      have : s.currentByte = some b' := hb'
      rw [hb] at this; cases this; exact hc.1
  · intro hi; have hi : s.phase = .idle := hi; rcases hp with hp | hp <;> simp [hp] at hi
  · exact fun hi => hi

theorem writes_payValue (h : Framing s) (ho : s.ordinaryEdge) (hw : s.writeSucceeds) (hp : s.phase = .pay)
    (hb : s.currentByte = some b) (he : escapeFirst b s.esc = false) :
    Writes s (xf b) ((s.payloadWrites (xf b)).deliver (xf b)).advance := by
  obtain ⟨b', hb', hd⟩ := h.current hp
  rw [hb] at hb'; cases hb'
  have hlt : s.idx.toNat < s.plen.toNat := h.idxInside hp
  have hs := h.short
  have h1 : (s.idx + 1).toNat = s.idx.toNat + 1 := by
    rw [BitVec.toNat_add]; apply Nat.mod_eq_of_lt; simp; omega
  have hpay : ((s.payloadWrites (xf b)).deliver (xf b)).advance.payload = s.payload := rfl
  have hlen := length_payload (s := s) hs
  have hrest : (stuff b).drop (if s.esc then 1 else 0) = [xf b] := by
    rw [stuff_rest b s.esc (fun hc => h.escCollides hc b hb), he]; rfl
  have hshort : (if s.esc then 1 else 0) ≤ (stuff b).length := by
    rcases hc : s.esc with _ | _
    · simp
    · simp [stuff, h.escCollides hc b hb]
  have htake : s.payload.take (s.idx.toNat + 1) = s.payload.take s.idx.toNat ++ [b] := by
    rw [List.take_add_one, payload_getElem? (h.idxInside hp), ← currentByte_of_pay hp, hb]; rfl
  have hsum : s.acc + xf b = csum (s.payload.take (s.idx.toNat + 1)) := by
    rw [htake, csum_append_singleton, h.accSums (.inl hp)]; simp [State.summed, hp]
  have hleft : s.remaining = xf b :: ((s.payload.drop (s.idx.toNat + 1)).flatMap stuff ++ stuff (csum s.payload)) := by
    simp only [State.remaining, hp, hd, List.flatMap_cons]
    rw [List.drop_append_of_le_length hshort, hrest]; rfl
  generalize hu : ((s.payloadWrites (xf b)).deliver (xf b)).advance = u
  have hpay' : u.payload = s.payload := by rw [← hu]; exact hpay
  have hidx : u.idx = s.idx + 1 := by rw [← hu]; rfl
  have hacc : u.acc = s.acc + xf b := by rw [← hu]; rfl
  have hesc : u.esc = false := by rw [← hu]; rfl
  have hplen : u.plen = s.plen := by rw [← hu]; rfl
  have hph : u.phase = if s.idx + 1 = s.plen then .csum else .pay := by rw [← hu]; rfl
  have hst : step s = .next u := by
    rw [step_currentByte ho hb, hw.1, if_pos rfl, he, if_neg (by simp), valueWrites_of_pay hp, txWrite_of_success hw.2, hu]
  have hoff : s.wireByte = some (xf b) := by simp [State.wireByte, hp, hb, wireByteOf, he]
  by_cases hz : s.idx + 1 = s.plen
  · rw [if_pos hz] at hph
    have hz' : s.plen.toNat = s.idx.toNat + 1 := by rw [← hz, h1]
    rw [List.take_of_length_le (by omega)] at hsum
    have hleft' : s.remaining = xf b :: u.remaining := by
      rw [hleft, List.drop_eq_nil_of_le (by omega)]; simp [State.remaining, hph, hacc, hsum, hesc]
    refine ⟨hst, hoff, ?_, hleft', ?_, by simp [hph], fun _ _ _ => by rw [hidx, hplen, hz], ?_, hplen, ?_, ?_, ?_, ?_, ?_, ?_⟩ <;>
      try (rw [← hu]; rfl)
    intro _
    exact ⟨.inr (.inr hph), by rw [hplen]; exact hs, by simp [hph], by simp [hph], by simp [hesc],
      by intro _; simp [State.summed, hph, hpay', hacc, hsum]⟩
  · rw [if_neg hz] at hph
    have hne : (s.idx + 1).toNat ≠ s.plen.toNat := fun hc => hz (BitVec.eq_of_toNat_eq hc)
    have hleft' : s.remaining = xf b :: u.remaining := by
      rw [hleft]; simp only [State.remaining, hph, hesc, hidx, h1, hpay']; rfl
    refine ⟨hst, hoff, ?_, hleft', ?_, by simp [hph], by simp [IdxAtEnd, hph], ?_, hplen, ?_, ?_, ?_, ?_, ?_, ?_⟩ <;>
      try (rw [← hu]; rfl)
    intro _
    refine ⟨.inr (.inl hph), by rw [hplen]; exact hs, ?_, by simp [hph], by simp [hesc],
      by intro _; simp only [State.summed, hph, hpay', hacc, hidx, h1, hsum]⟩
    intro _
    rw [hidx, hplen]; show (s.idx + 1).toNat < s.plen.toNat; omega

theorem writes_csumValue (h : Framing s) (ho : s.ordinaryEdge) (hw : s.writeSucceeds) (hp : s.phase = .csum)
    (he : escapeFirst s.acc s.esc = false) :
    Writes s (xf s.acc) (s.checksumWrites.deliver (xf s.acc)).advance := by
  have hb := currentByte_of_csum hp
  constructor <;> try rfl
  · rw [step_currentByte ho hb, hw.1, if_pos rfl, he, if_neg (by simp), valueWrites_of_csum hp, txWrite_of_success hw.2]
  · simp [State.wireByte, hp, hb, wireByteOf, he]
  · simp only [State.remaining, hp]
    rw [stuff_rest s.acc s.esc (fun hc => h.escCollides hc _ hb), he]; rfl
  · intro hi; exact absurd rfl hi
  · intro _
    refine ⟨?_, rfl⟩
    show s.acc = _
    rw [h.accSums (.inr hp)]; simp [State.summed, hp]
  · exact fun hi _ => hi (.inl hp)

/-- Inside a frame, an ordinary edge with a successful write writes the first byte still to be written. -/
theorem Framing.writes (h : Framing s) (ho : s.ordinaryEdge) (hw : s.writeSucceeds) : ∃ b t, Writes s b t := by
  rcases h.inFrame with hp | hp | hp
  · exact ⟨_, _, writes_hdr h ho hw hp⟩
  · obtain ⟨b, hb, -⟩ := h.current hp
    rcases he : escapeFirst b s.esc with _ | _
    · exact ⟨_, _, writes_payValue h ho hw hp hb he⟩
    · exact ⟨_, _, writes_esc h ho hw (.inl hp) hb he⟩
  · rcases he : escapeFirst s.acc s.esc with _ | _
    · exact ⟨_, _, writes_csumValue h ho hw hp he⟩
    · exact ⟨_, _, writes_esc h ho hw (.inr hp) (currentByte_of_csum hp) he⟩

/-- Inside a frame, an ordinary edge at a transport that is not ready changes nothing but the pins. -/
theorem step_not_ready (ho : s.ordinaryEdge) (hp : s.inFrame) (hr : s.levels.txReady = false) : step s = .next s.advance := by
  rw [step_of_ordinaryEdge ho]
  rcases hp with hp | hp | hp <;> simp [State.fetch, hp, hr]

theorem Framing.advance (h : Framing s) : Framing s.advance :=
  ⟨h.inFrame, h.short, h.idxInside, h.headerFresh, h.escCollides, h.accSums⟩

theorem Writes.payload (h : Writes s b t) : t.payload = s.payload := by simp [State.payload, h.pb, h.plen]

/-- Inside a frame something is still to be written. -/
theorem Framing.remaining_ne_nil (h : Framing s) : s.remaining ≠ [] := by
  intro hn
  rcases h.inFrame with p | p | p
  · simp [State.remaining, p, frame] at hn
  · simp [State.remaining, p, stuff_ne_nil] at hn
  · have e : s.remaining = (stuff s.acc).drop (if s.esc then 1 else 0) := by simp [State.remaining, p]
    rw [e, stuff_rest s.acc s.esc (fun hc => h.escCollides hc _ (currentByte_of_csum p))] at hn
    split at hn <;> simp at hn

/-- The frame of any payload in the buffer starts in the header phase. -/
theorem framing_hdr (hp : s.phase = .hdr) (hi : s.idx = 0) (he : s.esc = false) (hl : s.plen.toNat ≤ 5) : Framing s :=
  ⟨.inl hp, hl, by simp [hp], fun _ => ⟨hi, he⟩, by simp [he], by simp [hp]⟩

end Sys2Proof.Machine
end

