-- ==== Sys2Proof/Tests/Slice0.lean ====
section
/-! SUPPORT. Tests with expected results from the spec's own tables and vectors (the source stands in each docstring), and one witness
for the hypotheses of every statement that has some. -/

namespace Sys2Proof.Tests

open Sys2Proof.Machine

/-! ### Helpers -/

/-- The next state of an outcome. -/
def nextOf : Host.Outcome State Fault Refusal → Option State
  | .next s => some s
  | .fault _ => none
  | .refused _ => none

theorem next_of_nextOf {o : Host.Outcome State Fault Refusal} {u : State} (h : nextOf o = some u) : o = .next u := by
  cases o <;> simp_all [nextOf]

def notReady : Pins := { quietPins with txReady := false }
def failing : Pins := { quietPins with txErr := true }
/-- An error with no `tx_ready`, which is ignored (60_exceptions.md R177). -/
def notReadyErr : Pins := { notReady with txErr := true }
def resetting : Pins := { quietPins with rst := true }
def velWires (x y th : BitVec 12) : CmdWires := { CmdWires.ofTag 0#3 with x := x, y := y, th := th }
def rotWires (c : BitVec 13) : CmdWires := { CmdWires.ofTag 1#3 with calib := c }
def kickWires (k : BitVec 5) : CmdWires := { CmdWires.ofTag 2#3 with command := k }
def offering (w : CmdWires) : Pins := { quietPins with cmdValid := true, cmd := w }

/-- The reset state before edges with these levels. -/
def idleAt (ps : List Pins) : State := { State.reset with pins := ps }

/-- A frame with this payload, about to write its header. -/
def hdrAt (p : List Byte) (ps : List Pins) : State := { (idleAt ps).loadPayload p with acc := 0x55 }

/-- The payload byte at an index is to be written. -/
def payAt (p : List Byte) (k : BitVec 3) (esc : Bool) (acc : Byte) (ps : List Pins) : State :=
  { hdrAt p ps with phase := .pay, idx := k, esc := esc, acc := acc }

/-- The checksum is to be written. -/
def csumAt (acc : Byte) (esc : Bool) (ps : List Pins) : State :=
  { hdrAt [0x00] ps with phase := .csum, idx := 1, esc := esc, acc := acc }

def faultAt (code : FaultCode) (ps : List Pins) : State := (idleAt ps).raise code

/-- A state under DOC0's scheduler, running or stopped, at a stage of its tick. -/
def schedAt (running : Bool) (stage : TickStage) (s : State) : State :=
  { s with sched := some { Scheduler.start (some 120) (some 3) with running := running, stage := stage } }

/-! ### WellFormed: each check refuses an ill-formed term (30_encoding.md R68, R73; opcode table) -/

theorem test_wf_xval_00 : (Instr.xval 0).wf = false := by decide
theorem test_wf_xval_11 : (Instr.xval 3).wf = false := by decide
theorem test_wf_lit_header : (Instr.lit 0x7D).wf = false := by decide
theorem test_wf_lit_escape : (Instr.lit 0x7E).wf = false := by decide
theorem test_wf_legal : (Instr.xval 1).wf = true ∧ (Instr.xval 2).wf = true ∧ (Instr.lit 0x5D).wf = true := by decide

/-! ### Decode: words written out from the layout tables, for every constructor, and refusals by name -/

/-- Vector V-VEL-21: `000 10101 | 0111100 0 | 00100100 | 011 0 0100 | 01010110`. -/
theorem test_decode_vel : decode (.payload [0b00010101, 0b01111000, 0b00100100, 0b01100100, 0b01010110]) = .ok (.vel 0xABC 0x123 0x456) := rfl
/-- Vector V-ROT-14: `001 10010 | 00110100`. -/
theorem test_decode_rot : decode (.payload [0b00110010, 0b00110100]) = .ok (.rot 0x1234) := rfl
/-- Vector V-KICK-03: `010 10000`. -/
theorem test_decode_kick : decode (.payload [0b01010000]) = .ok (.kick 16) := rfl
/-- 30_encoding.md R71: tag 3 at the port. -/
theorem test_decode_bad3 : decode (.line (.command { CmdWires.ofTag 0b011#3 with x := 5 })) = .ok .bad3 := rfl
/-- Vector V-BAD-03: tag 4, operand ports ignored. -/
theorem test_decode_bad4 : decode (.line (.command { dtype := 0b100, x := 4095, y := 0, th := 0, calib := 8191, command := 31 })) = .ok (.badHigh 0) := rfl
theorem test_decode_hdr : decode (.symbol .frameStart 0b01111101) = .ok .hdr := rfl
theorem test_decode_esc : decode (.symbol .inFrame 0b01111110) = .ok .esc := rfl
theorem test_decode_xval : decode (.symbol .afterEscape 0b01011101) = .ok (.xval 0b01) := rfl
/-- "5D and 5E are legal literals" outside an escaped pair (opcode table, row LIT). -/
theorem test_decode_lit : decode (.symbol .inFrame 0b01011101) = .ok (.lit 0x5D) := rfl
theorem test_decode_tick : decode (.line (.tick 1 2 3 4 5)) = .ok (.tick 1 2 3 4 5) := rfl
/-- 30_encoding.md R60, R64, R65, R67, R70, R72: what is refused, by name. -/
theorem test_decode_refusals :
    decode (.payload []) = .error .emptyPayload ∧ decode (.payload [0x60]) = .error .reservedTag ∧
    decode (.payload [0x20]) = .error .wrongLength ∧ decode (.payload [0, 0, 0, 0x10, 0]) = .error .padBitSet ∧
    decode (.symbol .frameStart 0x7E) = .error .noHeader ∧ decode (.symbol .inFrame 0x7D) = .error .headerInsideFrame ∧
    decode (.symbol .afterEscape 0x7E) = .error .escapeAfterEscape := ⟨rfl, rfl, rfl, rfl, rfl, rfl, rfl⟩

/-- The rows of the opcode table as words, the lowest operands and one with all operand bits set. -/
theorem test_table_words :
    decodeTableWord 40 0x1FFFFFEFFF = some (.vel 0xFFF 0xFFF 0xFFF) ∧ decodeTableWord 16 0x2001 = some (.rot 1) ∧
    decodeTableWord 8 0x5B = some (.kick 27) ∧ decodeTableWord 8 0x3 = some .bad3 ∧ decodeTableWord 8 0x7 = some (.badHigh 3) ∧
    decodeTableWord 8 0x7D = some .hdr ∧ decodeTableWord 8 0x7E = some .esc ∧ decodeTableWord 8 0x5C = some (.xval 0) ∧
    decodeTableWord 8 0x00 = some (.lit 0) ∧ decodeTableWord 0 0 = some (.tick 0 0 0 0 0) :=
  ⟨rfl, rfl, rfl, rfl, rfl, rfl, rfl, rfl, rfl, rfl⟩

/-- The pad bit of a VEL word is checked (30_encoding.md R65). -/
theorem test_table_pad : decodeTableWord 40 0x0000001000 = none := rfl

/-! ### A placed instruction is the next step's -/

theorem test_place_vel : (nextOf (step (State.reset.withFetchWord 40 0))).map (·.phase) = some .hdr := by decide
theorem test_place_bad : (nextOf (step (State.reset.withFetchWord 8 3))).map (·.fcode) = some 1 := by decide
theorem test_place_hdr : (nextOf (step (State.reset.withFetchWord 8 0x7D))).map (·.wire) = some [0x7D] := by decide
theorem test_place_esc : (nextOf (step (State.reset.withFetchWord 8 0x7E))).map (·.wire) = some [0x7E] := by decide
theorem test_place_xval : (nextOf (step (State.reset.withFetchWord 8 0x5D))).map (·.wire) = some [0x5D] := by decide
theorem test_place_lit : (nextOf (step (State.reset.withFetchWord 8 0xFF))).map (·.wire) = some [0xFF] := by decide
theorem test_place_tick : (nextOf (step (State.reset.withFetchWord 0 0))).map (·.program.length) = some 3 := by decide

/-! ### The packer and the frame, by the vectors of 95_test_vectors.md -/

/-- V-VEL-02, V-VEL-03, V-VEL-21, V-ROT-08, V-KICK-04. -/
theorem test_pack :
    pack (.vel 4095 4095 4095) = .ok [0x1F, 0xFF, 0xFF, 0xEF, 0xFF] ∧ pack (.vel 4095 0 0) = .ok [0x1F, 0xFE, 0, 0, 0] ∧
    pack (.vel 0xABC 0x123 0x456) = .ok [0x15, 0x78, 0x24, 0x64, 0x56] ∧ pack (.rot 8062) = .ok [0x3F, 0x7E] ∧
    pack (.kick 29) = .ok [0x5D] := ⟨rfl, rfl, rfl, rfl, rfl⟩

/-- V-RAW-01, V-RAW-04, V-VEL-20, V-ROT-12. -/
theorem test_frame :
    frame [] = [0x7D, 0x7E, 0x5D] ∧ frame [0x7D, 0x7E] = [0x7D, 0x7E, 0x5D, 0x7E, 0x5E, 0x38] ∧
    frame [0x00, 0x7D, 0x7D, 0xE9, 0x7D] = [0x7D, 0x00, 0x7E, 0x5D, 0x7E, 0x5D, 0xE9, 0x7E, 0x5D, 0x7E, 0x5D] ∧
    frame [0x3F, 0xC1] = [0x7D, 0x3F, 0xC1, 0x7E, 0x5D] := by decide

/-! ### The meanings, one step each -/

/-- V-VEL-03: the accept loads five bytes. -/
theorem test_exec_vel : (nextOf (exec (.vel 4095 0 0) (idleAt []))).map (fun t => (t.pb, t.plen, t.phase)) =
    some ({ b0 := 0x1F, b1 := 0xFE, b2 := 0, b3 := 0, b4 := 0 }, 5, .hdr) := by decide
/-- V-ROT-08; the registers above the length become 0x00 (41_frame_encoder.md R121). -/
theorem test_exec_rot : (nextOf (exec (.rot 8062) { idleAt [] with pb := { b0 := 1, b1 := 2, b2 := 3, b3 := 4, b4 := 5 } })).map
    (fun t => (t.pb, t.plen)) = some ({ b0 := 0x3F, b1 := 0x7E, b2 := 0, b3 := 0, b4 := 0 }, 2) := by decide
/-- V-KICK-04. -/
theorem test_exec_kick : (nextOf (exec (.kick 29) (idleAt []))).map (fun t => (t.pb.b0, t.plen)) = some (0x5D, 1) := by decide
/-- V-BAD-01. -/
theorem test_exec_bad3 : (nextOf (exec .bad3 (idleAt []))).map (fun t => (t.phase, t.fcode, t.cmdReady, t.wire)) =
    some (.fault, 1, false, []) := by decide
/-- V-BAD-02. -/
theorem test_exec_bad7 : (nextOf (exec (.badHigh 3) (idleAt []))).map (fun t => (t.phase, t.fcode)) = some (.fault, 1) := by decide
/-- Program 1, step 1. -/
theorem test_exec_hdr : (nextOf (exec .hdr (hdrAt [0x40] [quietPins]))).map (fun t => (t.wire, t.acc, t.phase)) =
    some ([0x7D], 0x7D, .pay) := by decide
/-- V-RAW-01: the `plen = 0` path of R122. -/
theorem test_exec_hdr_empty : (nextOf (exec .hdr (hdrAt [] [quietPins]))).map (·.phase) = some .csum := by decide
/-- V-RAW-03, the payload's escape byte: not summed (R123). -/
theorem test_exec_esc : (nextOf (exec .esc (payAt [0x7E] 0 false 0x7D [quietPins]))).map (fun t => (t.wire, t.acc, t.esc, t.idx)) =
    some ([0x7E], 0x7D, true, 0) := by decide
/-- V-RAW-05, the checksum's escape byte (R125). -/
theorem test_exec_esc_csum : (nextOf (exec .esc (csumAt 0x7D false [quietPins]))).map (fun t => (t.wire, t.esc, t.phase)) =
    some ([0x7E], true, .csum) := by decide
/-- V-RAW-03: `7D + 5E = DB`, the transmitted value is summed. -/
theorem test_exec_xval : (nextOf (exec (.xval 2) (payAt [0x7E] 0 true 0x7D [quietPins]))).map
    (fun t => (t.wire, t.acc, t.esc, t.idx, t.phase)) = some ([0x5E], 0xDB, false, 1, .csum) := by decide
/-- V-RAW-04, the first of two bytes: PAY goes on. -/
theorem test_exec_xval_first : (nextOf (exec (.xval 1) (payAt [0x7D, 0x7E] 0 true 0x7D [quietPins]))).map
    (fun t => (t.acc, t.idx, t.phase)) = some (0xDA, 1, .pay) := by decide
/-- V-RAW-08: the sum wraps to exactly 00. -/
theorem test_exec_lit : (nextOf (exec (.lit 0x83) (payAt [0x83] 0 false 0x7D [quietPins]))).map
    (fun t => (t.wire, t.acc, t.phase)) = some ([0x83], 0x00, .csum) := by decide
/-- V-RAW-08: the checksum 00 as a literal ends the frame. -/
theorem test_exec_lit_csum : (nextOf (exec (.lit 0x00) (csumAt 0x00 false [quietPins]))).map (fun t => (t.wire, t.phase)) =
    some ([0x00], .idle) := by decide
/-- 30_encoding.md R76. -/
theorem test_exec_tick : (nextOf (exec (.tick 1 2 3 4 5) (idleAt []))).map (·.program) =
    some [.command (velWires 1 2 3), .command (rotWires 4), .command (kickWires 5)] := by decide
/-- 60_exceptions.md R175: the failed write. -/
theorem test_write_fails : (nextOf (exec .hdr (hdrAt [0x40] [failing]))).map (fun t => (t.phase, t.fcode, t.acc, t.plen)) =
    some (.fault, 2, 0x55, 1) := by
  simp only [exec, execHdr, State.writeSymbol, State.txWrite]
  rw [if_pos (by decide), if_pos (by decide)]
  rcases Config.txDeliveredOnError (hdrAt [0x40] [failing]).edge <;> decide
/-- 70_reset_and_hazards.md R202: a reset inside a frame. -/
theorem test_reset_inside : (nextOf (step (payAt [0x40] 0 false 0x7D [resetting]))).map (fun t => (t.phase, t.esc, t.acc)) =
    some (.idle, false, 0x7D) := by decide

/-! ### Witnesses: a state and operands that meet all hypotheses of each statement -/

theorem witness_ResetWritesThreeElements :
    ((idleAt [resetting]).live = true ∧ (idleAt [resetting]).hostTurn = .wait ∧ (idleAt [resetting]).levels.rst = true) ∧
    (State.live { idleAt [resetting] with live := false } = false ∧ (State.rawPins { idleAt [resetting] with live := false }).rst = true) ∧
    (State.rawPins { idleAt [quietPins] with live := false }).rst = false := by decide

/-- OutputsFollowTheState, each clause: V-RAW-02's payload byte with and without its escape byte, and checksums 7E and 5D. -/
theorem witness_OutputsFollowTheState :
    (hdrAt [0x7D] []).txData = 0x7D ∧ (payAt [0x7D] 0 false 0x7D []).txData = 0x7E ∧ (payAt [0x7D] 0 true 0x7D []).txData = 0x5D ∧
    (payAt [0x5D] 0 false 0x7D []).txData = 0x5D ∧ (csumAt 0x7E false []).txData = 0x7E ∧ (csumAt 0x7E true []).txData = 0x5E ∧
    (csumAt 0x5D false []).txData = 0x5D := by decide

theorem witness_PortsAfterReset : (faultAt 1 [resetting, quietPins]).live = true ∧ (faultAt 1 [resetting, quietPins]).hostTurn = .wait ∧
    (faultAt 1 [resetting, quietPins]).levels.rst = true ∧
    (nextOf (step (faultAt 1 [resetting, quietPins]))).map
      (fun t => (decide (t.hostTurn = .wait), t.live, t.levels.rst, t.levels.cmdValid)) = some (true, true, false, false) := by decide

theorem witness_StepRunsDecodedInstruction_command (w : CmdWires) : (idleAt [offering w]).ordinaryEdge ∧
    (idleAt [offering w]).phase = .idle ∧ (idleAt [offering w]).levels.cmdValid = true ∧
    ∃ i, decode (.line (.command (idleAt [offering w]).levels.cmd)) = .ok i := ⟨⟨rfl, rfl, rfl⟩, rfl, rfl, _, rfl⟩

theorem witness_StepRunsDecodedInstruction_hdr : ∃ s : State, s.ordinaryEdge ∧ s.phase = .hdr ∧ s.levels.txReady = true ∧
    s.wireByte = some 0x7D ∧ decode (.symbol s.wirePos 0x7D) = .ok .hdr :=
  ⟨hdrAt [0x40] [quietPins], ⟨rfl, rfl, rfl⟩, rfl, rfl, rfl, rfl⟩

theorem witness_StepRunsDecodedInstruction_pay : ∃ s : State, s.ordinaryEdge ∧ s.phase = .pay ∧ s.levels.txReady = true ∧
    s.wireByte = some 0x5D ∧ decode (.symbol s.wirePos 0x5D) = .ok (.xval 1) :=
  ⟨payAt [0x7D] 0 true 0x7D [quietPins], ⟨rfl, rfl, rfl⟩, rfl, rfl, rfl, rfl⟩

theorem witness_StepRunsDecodedInstruction_csum : ∃ s : State, s.ordinaryEdge ∧ s.phase = .csum ∧ s.levels.txReady = true ∧
    s.wireByte = some 0x5D ∧ decode (.symbol s.wirePos 0x5D) = .ok (.lit 0x5D) :=
  ⟨csumAt 0x5D false [quietPins], ⟨rfl, rfl, rfl⟩, rfl, rfl, rfl, rfl⟩

theorem witness_StepRunsDecodedInstruction_tick : State.live { idleAt [] with program := [.tick 1 2 3 4 5] } = true ∧
    State.phase { idleAt [] with program := [.tick 1 2 3 4 5] } = .idle ∧ decode (.line (.tick 1 2 3 4 5)) = .ok (.tick 1 2 3 4 5) :=
  ⟨rfl, rfl, rfl⟩

/-- VelPacksAndIsAccepted, RotPacksAndIsAccepted, KickPacksAndIsAccepted, BadTagsTakeInvalidDatatype, UnspecifiedElementsAreNeverObserved. -/
theorem witness_idle : State.reset.phase = .idle ∧ DifferInUnspecified State.reset { State.reset with plen := 7, acc := 0x7E, idx := 5 } :=
  ⟨rfl, rfl⟩

/-- BadTagsTakeInvalidDatatype and AcceptLoadsTheCommandAtThePort at the lowest and the highest illegal tag. -/
theorem witness_illegal_tags : 3#3 ≤ (CmdWires.ofTag 3).dtype ∧ 3#3 ≤ (CmdWires.ofTag 7).dtype ∧ ¬ 3#3 ≤ (CmdWires.ofTag 2).dtype := by decide

/-- AcceptLoadsTheCommandAtThePort at every legal tag and at the lowest and the highest illegal one. -/
theorem witness_AcceptLoadsTheCommandAtThePort : ∀ tag ∈ [0#3, 1#3, 2#3, 3#3, 7#3],
    (idleAt [offering (CmdWires.ofTag tag)]).ordinaryEdge ∧ (idleAt [offering (CmdWires.ofTag tag)]).phase = .idle ∧
    (idleAt [offering (CmdWires.ofTag tag)]).levels.cmdValid = true ∧
    (idleAt [offering (CmdWires.ofTag tag)]).levels.cmd.dtype = tag := fun _ _ => ⟨⟨rfl, rfl, rfl⟩, rfl, rfl, rfl⟩

theorem witness_UnusedOperandPortsAreIgnored :
    (velWires 1 2 3).dtype = ({ velWires 1 2 3 with calib := 9 } : CmdWires).dtype ∧
    (rotWires 1).dtype = ({ rotWires 1 with x := 9 } : CmdWires).dtype ∧
    (kickWires 1).dtype = ({ kickWires 1 with th := 9 } : CmdWires).dtype ∧
    (CmdWires.ofTag 3).dtype = ({ CmdWires.ofTag 3 with x := 9 } : CmdWires).dtype ∧
    (CmdWires.ofTag 7).dtype = ({ CmdWires.ofTag 7 with x := 9 } : CmdWires).dtype := by decide

theorem witness_NotEnabledChangesNothing : (hdrAt [0x40] [quietPins]).phase ≠ .idle ∧ (hdrAt [0x40] [quietPins]).due ≠ some .esc ∧
    (hdrAt [0x40] [notReady]).levels.txReady = false := by decide

theorem witness_CommandFrame :
    (∃ w, Instr.vel 4095 0 0 = decodeCommand w) ∧ validCommand (.vel 4095 0 0) = true ∧
    (∃ t, exec (.vel 4095 0 0) (idleAt []) = .next t) ∧ (∃ t, exec .bad3 (idleAt []) = .next t) ∧
    ∃ t, exec (.badHigh 0) (idleAt []) = .next t := ⟨⟨velWires 4095 0 0, rfl⟩, rfl, ⟨_, rfl⟩, ⟨_, rfl⟩, ⟨_, rfl⟩⟩

theorem witness_HdrWritesHeaderAndSeeds :
    ((hdrAt [] [quietPins]).phase = .hdr ∧ (hdrAt [] [quietPins]).ordinaryEdge ∧ (hdrAt [] [quietPins]).writeSucceeds ∧
      (hdrAt [] [quietPins]).plen = 0) ∧
    ((hdrAt [1, 2, 3, 4, 5] [quietPins]).phase = .hdr ∧ (hdrAt [1, 2, 3, 4, 5] [quietPins]).ordinaryEdge ∧
      (hdrAt [1, 2, 3, 4, 5] [quietPins]).writeSucceeds ∧ (hdrAt [1, 2, 3, 4, 5] [quietPins]).plen ≠ 0) :=
  ⟨⟨rfl, ⟨rfl, rfl, rfl⟩, ⟨rfl, rfl⟩, rfl⟩, ⟨rfl, ⟨rfl, rfl, rfl⟩, ⟨rfl, rfl⟩, by decide⟩⟩

theorem witness_EscWritesEscapeOnly :
    ((payAt [0x7D] 0 false 0x7D [quietPins]).phase = .pay ∧ (payAt [0x7D] 0 false 0x7D [quietPins]).pb.get 0 = some 0x7D ∧
      collide 0x7D = true ∧ (payAt [0x7D] 0 false 0x7D [quietPins]).esc = false ∧
      (payAt [0x7D] 0 false 0x7D [quietPins]).ordinaryEdge ∧ (payAt [0x7D] 0 false 0x7D [quietPins]).writeSucceeds) ∧
    ((csumAt 0x7E false [quietPins]).phase = .csum ∧ collide (csumAt 0x7E false [quietPins]).acc = true ∧
      (csumAt 0x7E false [quietPins]).esc = false ∧ (csumAt 0x7E false [quietPins]).ordinaryEdge ∧
      (csumAt 0x7E false [quietPins]).writeSucceeds) :=
  ⟨⟨rfl, rfl, rfl, rfl, ⟨rfl, rfl, rfl⟩, ⟨rfl, rfl⟩⟩, ⟨rfl, rfl, rfl, ⟨rfl, rfl, rfl⟩, ⟨rfl, rfl⟩⟩⟩

/-- LIT before the last payload byte, LIT at it, XVAL, and LIT in the case that no run reaches. -/
theorem witness_PayloadValueIsWrittenAndSummed :
    ((payAt [0x7C, 0x7F] 0 false 0x7D [quietPins]).ordinaryEdge ∧ (payAt [0x7C, 0x7F] 0 false 0x7D [quietPins]).pb.get 0 = some 0x7C ∧
      collide 0x7C = false ∧ (payAt [0x7C, 0x7F] 0 false 0x7D [quietPins]).writeSucceeds) ∧
    ((payAt [0x7C, 0x7F] 1 false 0xF9 [quietPins]).ordinaryEdge ∧ (payAt [0x7C, 0x7F] 1 false 0xF9 [quietPins]).pb.get 1 = some 0x7F ∧
      collide 0x7F = false ∧ (payAt [0x7C, 0x7F] 1 false 0xF9 [quietPins]).writeSucceeds) ∧
    ((payAt [0x7E] 0 true 0x7D [quietPins]).ordinaryEdge ∧ (payAt [0x7E] 0 true 0x7D [quietPins]).pb.get 0 = some 0x7E ∧
      xf 0x7E = 0b010111#6 ++ 2#2 ∧ (payAt [0x7E] 0 true 0x7D [quietPins]).writeSucceeds) ∧
    ((payAt [0x00] 0 true 0x7D [quietPins]).esc = true ∧ (payAt [0x00] 0 true 0x7D [quietPins]).pb.get 0 = some 0x00 ∧
      (xf 0x00).extractLsb' 2 6 ≠ 0b010111#6 ∧ (payAt [0x00] 0 true 0x7D [quietPins]).writeSucceeds) :=
  ⟨⟨⟨rfl, rfl, rfl⟩, rfl, rfl, ⟨rfl, rfl⟩⟩, ⟨⟨rfl, rfl, rfl⟩, rfl, rfl, ⟨rfl, rfl⟩⟩, ⟨⟨rfl, rfl, rfl⟩, rfl, rfl, ⟨rfl, rfl⟩⟩,
    ⟨rfl, rfl, by decide, ⟨rfl, rfl⟩⟩⟩

theorem witness_ChecksumValueEndsTheFrame :
    ((csumAt 0x5D false [quietPins]).phase = .csum ∧ (csumAt 0x5D false [quietPins]).ordinaryEdge ∧
      collide (csumAt 0x5D false [quietPins]).acc = false ∧ (csumAt 0x5D false [quietPins]).writeSucceeds) ∧
    ((csumAt 0x7D true [quietPins]).phase = .csum ∧ (csumAt 0x7D true [quietPins]).ordinaryEdge ∧
      xf (csumAt 0x7D true [quietPins]).acc = 0b010111#6 ++ 1#2 ∧ (csumAt 0x7D true [quietPins]).writeSucceeds) ∧
    ((csumAt 0xFF true [quietPins]).esc = true ∧ (xf (csumAt 0xFF true [quietPins]).acc).extractLsb' 2 6 ≠ 0b010111#6 ∧
      (csumAt 0xFF true [quietPins]).writeSucceeds) :=
  ⟨⟨rfl, ⟨rfl, rfl, rfl⟩, rfl, ⟨rfl, rfl⟩⟩, ⟨rfl, ⟨rfl, rfl, rfl⟩, rfl, ⟨rfl, rfl⟩⟩, ⟨rfl, by decide, ⟨rfl, rfl⟩⟩⟩

theorem witness_HoldChangesNoElement :
    ((idleAt [quietPins]).ordinaryEdge ∧ (idleAt [quietPins]).levels.cmdValid = false) ∧
    ((hdrAt [0x40] [notReady]).ordinaryEdge ∧ (hdrAt [0x40] [notReady]).levels.txReady = false) ∧
    ((payAt [0x40] 0 false 0x7D [notReady]).ordinaryEdge ∧ (payAt [0x40] 0 false 0x7D [notReady]).levels.txReady = false) ∧
    ((csumAt 0xBD false [notReady]).ordinaryEdge ∧ (csumAt 0xBD false [notReady]).levels.txReady = false) ∧
    ((faultAt 2 [quietPins]).ordinaryEdge ∧ (faultAt 2 [quietPins]).phase = .fault) :=
  ⟨⟨⟨rfl, rfl, rfl⟩, rfl⟩, ⟨⟨rfl, rfl, rfl⟩, rfl⟩, ⟨⟨rfl, rfl, rfl⟩, rfl⟩, ⟨⟨rfl, rfl, rfl⟩, rfl⟩, ⟨⟨rfl, rfl, rfl⟩, rfl⟩⟩

theorem witness_BackpressureKeepsTheOfferedByte : (payAt [0x7D] 0 false 0x7D [notReady, notReadyErr]).live = true ∧
    (payAt [0x7D] 0 false 0x7D [notReady, notReadyErr]).wireByte = some 0x7E ∧
    (payAt [0x7D] 0 false 0x7D [notReady, notReadyErr]).pins = [notReady, notReadyErr] ++ [] ∧
    ∀ q ∈ [notReady, notReadyErr], q.rst = false ∧ q.txReady = false := by decide

theorem witness_SymbolFrame : (∃ t, exec .hdr (hdrAt [0x40] [quietPins]) = .next t) ∧
    (∃ t, exec .esc (payAt [0x7D] 0 false 0x7D [quietPins]) = .next t) ∧
    (∃ t, exec (.xval 1) (payAt [0x7D] 0 true 0x7D [quietPins]) = .next t) ∧
    ∃ t, exec (.lit 0xBD) (csumAt 0xBD false [quietPins]) = .next t := ⟨⟨_, rfl⟩, ⟨_, rfl⟩, ⟨_, rfl⟩, ⟨_, rfl⟩⟩

theorem witness_FailedWriteTakesTheFault :
    ((hdrAt [0x40] [failing]).due = some .hdr ∧ (hdrAt [0x40] [failing]).writeFails) ∧
    ((payAt [0x7D] 0 false 0x7D [failing]).due = some .esc ∧ (payAt [0x7D] 0 false 0x7D [failing]).writeFails) ∧
    ((payAt [0x7D] 0 true 0x7D [failing]).due = some (.xval 1) ∧ (payAt [0x7D] 0 true 0x7D [failing]).writeFails) ∧
    ((csumAt 0xBD false [failing]).due = some (.lit 0xBD) ∧ (csumAt 0xBD false [failing]).writeFails) :=
  ⟨⟨rfl, rfl, rfl⟩, ⟨rfl, rfl, rfl⟩, ⟨rfl, rfl, rfl⟩, ⟨rfl, rfl, rfl⟩⟩

/-- The invariant holds inside a frame too: ROT 0 accepted, its first byte written (vector V-ROT-01). -/
def rotRunning (ps : List Pins) : State := { payAt [0x20, 0x00] 1 false 0x9D ps with accepted := [.rot 0] }

theorem witness_inv_inFrame (ps : List Pins) : Inv (rotRunning ps) where
  plenLegal _ := .inr (.inl rfl)
  packed _ := ⟨.rot 0, rfl, rfl⟩
  idxInside _ := by show (1#3 : BitVec 3) < 2#3; decide
  headerFresh h := by cases h
  escCollides h := by cases h
  accSums _ := by show (0x9D#8 : Byte) = csum [0x20#8]; decide
  faultHasCode := by constructor <;> intro h
                     · cases h
                     · exact absurd rfl h
  codeProduced := by show (0#2 : FaultCode) ≠ 3#2; decide

theorem witness_inv_fault (ps : List Pins) : Inv (faultAt 1 ps) where
  plenLegal h := by rcases h with h | h | h <;> cases h
  packed h := by rcases h with h | h | h <;> cases h
  idxInside h := by cases h
  headerFresh h := by cases h
  escCollides h := by cases h
  accSums h := by rcases h with h | h <;> cases h
  faultHasCode := by constructor <;> intro _
                     · show (1#2 : FaultCode) ≠ 0#2; decide
                     · rfl
  codeProduced := by show (1#2 : FaultCode) ≠ 3#2; decide

/-- StepKeepsInvariant, InvariantStatesAlwaysStep: with `witness_inv_inFrame`. -/
theorem witness_StepKeepsInvariant : (rotRunning [quietPins]).live = true ∧ ∃ t, step (rotRunning [quietPins]) = .next t := ⟨rfl, _, rfl⟩

/-- FaultIsStickyUntilReset: with `witness_inv_fault`. -/
theorem witness_FaultIsStickyUntilReset : (faultAt 1 [quietPins]).live = true ∧ (faultAt 1 [quietPins]).phase = .fault ∧
    (faultAt 1 [quietPins]).levels.rst = false ∧ (faultAt 1 [quietPins]).fcode ≠ 0 ∧ (∃ t, step (faultAt 1 [quietPins]) = .next t) ∧
    ∃ t, step (faultAt 1 [resetting]) = .next t := ⟨rfl, rfl, rfl, by decide, ⟨_, rfl⟩, ⟨_, rfl⟩⟩

/-- StepStopsExactlyWhen, at the first index without a register. -/
theorem witness_StepStopsExactlyWhen : step (payAt [0] 5 false 0x7D [quietPins]) = .fault .noSuchPayloadByte ∧
    step { idleAt [quietPins] with live := false } = .refused .beforeFirstReset ∧
    (nextOf (step (payAt [0] 4 false 0x7D [quietPins]))).isSome = true := ⟨rfl, rfl, by decide⟩

/-- PhasesFollowTheCycle, CommandsAreAcceptedOnlyWhenReady, StepWritesAtMostTxData: each change of phase happens. -/
theorem witness_PhasesFollowTheCycle :
    (nextOf (step (idleAt [offering (kickWires 0)]))).map (·.phase) = some .hdr ∧
    (nextOf (step (idleAt [offering (CmdWires.ofTag 5)]))).map (·.phase) = some .fault ∧
    (nextOf (step (hdrAt [0x40] [quietPins]))).map (·.phase) = some .pay ∧
    (nextOf (step (hdrAt [] [quietPins]))).map (·.phase) = some .csum ∧
    (nextOf (step (payAt [0x40] 0 false 0x7D [quietPins]))).map (·.phase) = some .csum ∧
    (nextOf (step (csumAt 0xBD false [quietPins]))).map (·.phase) = some .idle := by decide

theorem witness_BusyBlockIgnoresTheCommandPort :
    (hdrAt [0x40] [quietPins]).phase ≠ .idle ∧ (hdrAt [0x40] [quietPins]).live = true ∧
    hdrAt [0x40] [offering (kickWires 1)] = { hdrAt [0x40] [quietPins] with pins := [offering (kickWires 1)] } ∧
    (hdrAt [0x40] [offering (kickWires 1)]).levels.rst = (hdrAt [0x40] [quietPins]).levels.rst ∧
    (hdrAt [0x40] [offering (kickWires 1)]).levels.txReady = (hdrAt [0x40] [quietPins]).levels.txReady ∧
    (hdrAt [0x40] [offering (kickWires 1)]).levels.txErr = (hdrAt [0x40] [quietPins]).levels.txErr ∧
    ∃ u, step (hdrAt [0x40] [quietPins]) = .next u := ⟨by decide, rfl, rfl, rfl, rfl, rfl, _, rfl⟩

/-- GoodEndIsQuiescent: a run under the scheduler that has ended in IDLE after a frame, and an edge with nothing at the port. -/
theorem witness_GoodEndIsQuiescent :
    ((schedAt false .start (idleAt [quietPins])).endedWell ∧ ∃ t, runFor 1 (schedAt false .start (idleAt [quietPins])) = .next t) ∧
    ((idleAt [quietPins]).phase = .idle ∧ (idleAt [quietPins]).ordinaryEdge ∧ (idleAt [quietPins]).levels.cmdValid = false) :=
  ⟨⟨endedWell_of_stopped rfl rfl rfl rfl, _, rfl⟩, rfl, ⟨rfl, rfl, rfl⟩, rfl⟩

/-- WellEndedRunIsOneFramePerCommand: RESET, KICK 0 accepted and written as its frame (V-KICK-01), and the last tick's boundary. -/
theorem witness_WellEndedRunIsOneFramePerCommand : ∃ s r t : State, s.resetEdge ∧ step s = .next r ∧ RunTo r t ∧ t.endedWell ∧
    t.wire = [0x7D, 0x40, 0xBD] := by
  let r : State := { idleAt (List.replicate 5 quietPins) with
    edge := 1, program := [.command (kickWires 0)],
    sched := some { Scheduler.start (some 120) (some 1) with stage := .boundary } }
  let u1 : State := { r with
    pb := .load [0x40], plen := 1, phase := .hdr, accepted := [.kick 0], program := [], pins := List.replicate 4 quietPins, edge := 2 }
  let u2 : State := { u1 with acc := 0x7D, phase := .pay, wire := [0x7D], pins := List.replicate 3 quietPins, edge := 3 }
  let u3 : State := { u2 with acc := 0xBD, idx := 1, phase := .csum, wire := [0x7D, 0x40], pins := List.replicate 2 quietPins, edge := 4 }
  let u4 : State := { u3 with phase := .idle, wire := [0x7D, 0x40, 0xBD], pins := [quietPins], edge := 5 }
  have h1 : RunTo r u1 := RunTo.here.step (not_resetEdge rfl rfl) (next_of_nextOf (by decide))
  have h2 : RunTo r u2 := h1.step (not_resetEdge rfl rfl) (next_of_nextOf (by decide))
  have h3 : RunTo r u3 := h2.step (not_resetEdge rfl rfl) (next_of_nextOf (by decide))
  have h4 : RunTo r u4 := h3.step (not_resetEdge rfl rfl) (next_of_nextOf (by decide))
  have h5 := h4.step (not_resetEdge rfl rfl) (rfl : step _ = .next _)
  exact ⟨{ r with pins := resetting :: r.pins, edge := 0, live := false }, r, _, .inl ⟨rfl, rfl⟩, rfl, h5,
    endedWell_of_stopped rfl rfl rfl rfl, rfl⟩

/-- TransformAndStuffing at the bytes around the colliding ones (95_test_vectors.md, helper functions). -/
theorem witness_TransformAndStuffing : collide 0x7C = false ∧ collide 0x7D = true ∧ collide 0x7E = true ∧ collide 0x7F = false ∧
    collide 0x5D = false ∧ xf 0x7D ≠ 0x7D := by decide

/-- FrameIsDelimitedAndReadable: an escape byte in a frame (V-RAW-02). -/
theorem witness_FrameIsDelimitedAndReadable : (frame [0x7D])[1]? = some 0x7E := by decide

/-- ReaderRecoversTheCommand, PackIsInjectiveWithThisImage, WhichBytesCollide, WireLengthsOfTheFormats: payloads exist (V-VEL-02, V-ROT-02, V-KICK-06). -/
theorem witness_pack : pack (.vel 4095 4095 4095) = .ok [0x1F, 0xFF, 0xFF, 0xEF, 0xFF] ∧ pack (.rot 8191) = .ok [0x3F, 0xFF] ∧
    pack (.kick 31) = .ok [0x5F] := ⟨rfl, rfl, rfl⟩

/-- EncoderWritesTheFrameOfAnyPayload at the shortest payload, with backpressure, with and without an ignored error (V-RAW-01). -/
theorem witness_EncoderWritesTheFrameOfAnyPayload :
    ∃ (s : State) (qs : List Pins), s.live = true ∧ s.phase = .hdr ∧ s.idx = 0 ∧ s.esc = false ∧ s.plen ≤ 5 ∧ s.pins = qs ++ [] ∧
      (∀ q ∈ qs, undisturbed q = true) ∧ qs.getLast?.map (·.txReady) = some true ∧ readyEdges qs = (frame s.payload).length :=
  ⟨hdrAt [] (notReady :: notReadyErr :: List.replicate 3 quietPins), notReady :: notReadyErr :: List.replicate 3 quietPins, by decide⟩

theorem witness_EncoderWritesTheFrameOfAnyPayload_longest :
    ∃ (s : State) (qs : List Pins), s.live = true ∧ s.phase = .hdr ∧ s.idx = 0 ∧ s.esc = false ∧ s.plen ≤ 5 ∧
      s.pins = qs ++ [] ∧ (∀ q ∈ qs, undisturbed q = true) ∧ qs.getLast?.map (·.txReady) = some true ∧
      readyEdges qs = (frame s.payload).length :=
  ⟨hdrAt (List.replicate 5 0x7D) (List.replicate 12 quietPins), List.replicate 12 quietPins, by decide⟩

theorem witness_AcceptedCommandIsWrittenAsItsFrame :
    ∃ (s : State) (qs : List Pins), s.ordinaryEdge ∧ s.phase = .idle ∧ s.levels.cmdValid = true ∧
      pack (decodeCommand s.levels.cmd) = .ok [0x40] ∧ s.pins = offering (kickWires 0) :: qs ++ [] ∧
      (∀ q ∈ qs, undisturbed q = true) ∧ qs.getLast?.map (·.txReady) = some true ∧ readyEdges qs = (frame [0x40]).length :=
  ⟨idleAt (offering (kickWires 0) :: notReadyErr :: List.replicate 3 quietPins), notReadyErr :: List.replicate 3 quietPins,
    ⟨rfl, rfl, rfl⟩, rfl, rfl, rfl, rfl, by decide, rfl, by decide⟩

/-- FailedWriteCutsTheFrame and ResetCutsTheFrame: at the first byte of the frame. -/
theorem witness_FailedWriteCutsTheFrame : ∃ (s : State) (q : Pins),
    s.live = true ∧ s.phase = .hdr ∧ s.idx = 0 ∧ s.esc = false ∧ s.plen ≤ 5 ∧ s.pins = [] ++ q :: [] ∧
      readyEdges [] = 0 ∧ 0 < (frame s.payload).length ∧ q.rst = false ∧ q.txReady = true ∧ q.txErr = true :=
  ⟨hdrAt [0x40] [failing], failing, by decide⟩

theorem witness_ResetCutsTheFrame : ∃ (s : State) (q : Pins),
    s.live = true ∧ s.hosted = false ∧ s.phase = .hdr ∧ s.idx = 0 ∧ s.esc = false ∧ s.plen ≤ 5 ∧ s.pins = [] ++ q :: [] ∧
      readyEdges [] = 0 ∧ 0 < (frame s.payload).length ∧ q.rst = true :=
  ⟨hdrAt [0x40] [resetting], resetting, by decide⟩

/-- The same at the last byte. -/
theorem witness_FailedWriteCutsTheFrame_last : ∃ (s : State) (q : Pins) (qs : List Pins), q.txErr = true ∧ q.txReady = true ∧
    s.live = true ∧ s.phase = .hdr ∧ s.plen ≤ 5 ∧ s.pins = qs ++ q :: [] ∧ (∀ r ∈ qs, undisturbed r = true) ∧
      readyEdges qs = 2 ∧ (frame s.payload).length = 3 :=
  ⟨hdrAt [0x40] [quietPins, notReadyErr, quietPins, failing], failing, [quietPins, notReadyErr, quietPins], by decide⟩

/-- WireStreamIsTheFramesInOrder, both clauses: ROT 0 accepted, three of its frame's bytes still to be written (V-ROT-01), at a step that
writes one and at one that the transport holds back with an ignored error. -/
theorem witness_WireStreamIsTheFramesInOrder : ∀ q ∈ [quietPins, notReadyErr],
    let s : State := { rotRunning [q] with wire := [0x7D, 0x20] }
    Inv s ∧ State.framedSince [] [] s ∧ ¬ s.resetEdge ∧ ¬ s.failedWrite ∧ (∃ t, step s = .next t) ∧ State.reset.phase = .idle := by
  intro q hq
  obtain rfl | rfl : q = quietPins ∨ q = notReadyErr := by simpa using hq
  all_goals
    refine ⟨inv_congr (witness_inv_inFrame []) rfl rfl rfl rfl rfl rfl rfl rfl, ⟨[.rot 0], rfl, by decide⟩, not_resetEdge rfl rfl,
      fun h => absurd h.2 (by simp only [State.writeFails]; decide), ⟨_, rfl⟩, rfl⟩

/-- ProgramIsWrittenAsItsFrames: two commands, and whatever number of ready edges is enough, after one of backpressure with an ignored error. -/
theorem witness_ProgramIsWrittenAsItsFrames : ∃ ws : List CmdWires, ws.length = 2 ∧ (∀ w ∈ ws, hostMayOffer (.command w)) ∧
    ∀ enough : Nat, ∃ (s : State) (qs : List Pins), s.live = true ∧ s.phase = .idle ∧ s.sched = none ∧
      s.program = ws.map .command ∧ s.pins = qs ++ [] ∧ (∀ q ∈ qs, undisturbed q = true) ∧ enough ≤ readyEdges qs := by
  refine ⟨[kickWires 0, rotWires 0], rfl, ?_, fun enough => ⟨{ idleAt (notReadyErr :: List.replicate enough quietPins) with
    program := [.command (kickWires 0), .command (rotWires 0)] }, notReadyErr :: List.replicate enough quietPins,
    rfl, rfl, rfl, rfl, by simp [idleAt], ?_, ?_⟩⟩
  · simp [hostMayOffer, kickWires, rotWires, CmdWires.ofTag]
  · intro q hq
    rcases List.mem_cons.1 hq with rfl | h
    · rfl
    · rw [List.eq_of_mem_replicate h]; rfl
  · have h : ∀ q ∈ List.replicate enough quietPins, q.txReady = true := fun q h => by rw [List.eq_of_mem_replicate h]; rfl
    rw [readyEdges, List.countP_cons, List.countP_eq_length.2 h, List.length_replicate]
    exact Nat.le_add_right _ _

theorem witness_PayloadDecodingLosesNothing : decode (.payload [0x3F, 0xFF]) = .ok (.rot 8191) := rfl

theorem witness_DecodeOfHostLine : lineOf (.badHigh 3) = some (.command (CmdWires.ofTag 7)) ∧ lineOf .hdr = none := ⟨rfl, rfl⟩

/-- SchedulerTickEnd at 120 Hz: the period is 8333 microseconds and a third, so 8332 is inside it and 8334 is an overrun. -/
theorem witness_SchedulerTickEnd : 0 < 120 ∧ 8332 * 120 < 1000000 - 120 ∧ 1000000 ≤ 8334 * 120 := by decide

/-- SchedulerTickInOrder, each stage. -/
theorem witness_SchedulerTickInOrder : ∀ stage : TickStage, (schedAt true stage (idleAt [])).live = true ∧
    (schedAt true stage (idleAt [])).phase = .idle ∧ (schedAt true stage (idleAt [])).program = [] ∧
    ∃ h, (schedAt true stage (idleAt [])).sched = some h ∧ h.running = true ∧ h.stage = stage :=
  fun _ => ⟨rfl, rfl, rfl, _, rfl, rfl, rfl⟩

/-- SchedulerCancellation, at the last tick before the bound. -/
theorem witness_SchedulerCancellation : ∃ h : Scheduler, h.tickLimit = some 3 ∧ h.ticks + 1 < 3 ∧ h.ticks = 1 :=
  ⟨{ Scheduler.start (some 120) (some 3) with ticks := 1 }, rfl, by decide, rfl⟩

theorem witness_SchedulerHostIsWellBehaved : ∃ (s : State) (h : Scheduler), s.live = true ∧ s.sched = some h ∧ h.running = true ∧
    (∀ l ∈ s.program, hostMayOffer l) ∧ s.fcode ≠ 1 ∧ s.program ≠ [] ∧ ∃ t, step s = .next t :=
  ⟨{ schedAt true .frames (idleAt [quietPins]) with program := [.command (kickWires 0)] }, _, rfl, rfl, rfl,
    fun l h => by obtain rfl : l = .command (kickWires 0) := by simpa [schedAt] using h
                  exact .inr (.inr rfl), by decide, by simp, _, rfl⟩

theorem witness_SchedulerHostIsWellBehaved_fault : ∃ (s : State) (h : Scheduler), s.live = true ∧ s.sched = some h ∧ h.running = true ∧
    s.phase = .fault := ⟨schedAt true .frames (faultAt 2 []), _, rfl, rfl, rfl, rfl⟩

/-- SchedulerOffersOnlyAfterTheFrame, the premises of each clause: running with a command next in IDLE, and stopped with a step to take. -/
theorem witness_SchedulerOffersOnlyAfterTheFrame :
    (∃ (s : State) (h : Scheduler), s.live = true ∧ s.sched = some h ∧ h.running = true ∧ s.phase = .idle ∧
      s.program = .command (rotWires 0) :: [.command (kickWires 0)]) ∧
    ∃ (s t : State) (h : Scheduler), s.sched = some h ∧ h.running = false ∧ runFor 1 s = .next t :=
  ⟨⟨{ schedAt true .frames (idleAt []) with program := [.command (rotWires 0), .command (kickWires 0)] }, _, rfl, rfl, rfl, rfl, rfl⟩,
    ⟨schedAt false .start (idleAt [resetting]), _, _, rfl, rfl, rfl⟩⟩

/-- 42_host_scheduler.md R157: the running scheduler has ROT next, and offers it when the frame before is complete and not while it is in
progress. -/
theorem test_sched_waits_for_the_frame :
    (State.levels { schedAt true .frames (hdrAt [0x40] []) with program := [.command (rotWires 0)] }).cmdValid = false ∧
    (State.levels { schedAt true .frames (idleAt []) with program := [.command (rotWires 0)] }).cmdValid = true := ⟨rfl, rfl⟩

/-- 42_host_scheduler.md R154: it stops in FAULT with the rest of its tick unsent, and a reset is then possible. -/
theorem test_sched_stops_in_fault :
    (nextOf (step { schedAt true .frames (faultAt 2 [resetting]) with program := [.command (rotWires 0)] })).map
      (fun t => (t.program, t.hosted, t.levels.rst)) = some ([], false, true) := by decide

/-- 42_host_scheduler.md R153, at the ends of the valid range. -/
theorem witness_SchedulerArgumentFallback : (Scheduler.start (some 0) none).hz = 120 ∧ (Scheduler.start (some 1) none).hz = 1 ∧
    (Scheduler.start (some 99999) none).hz = 99999 ∧ (Scheduler.start (some 100000) none).hz = 120 := by decide

end Sys2Proof.Tests
end

section
/-! PROOFS. The block's state and ports (10_state.md): the invariant of R35 is kept, what a step can stop at, the outputs, backpressure,
acceptance, and that the elements which reset leaves unspecified are never observed. -/

namespace Sys2Proof.Machine

variable {s t u : State} {b : Byte} {p : List Byte} {qs rest : List Pins} {w : CmdWires}

/-! ### The invariant of R35 -/

/-- Inside a frame the invariant is `Framing`, the packed payload and no fault code. -/
theorem inv_of_framing (hf : Framing s) (hl : s.plen = 1 ∨ s.plen = 2 ∨ s.plen = 5)
    (hk : ∃ i, s.accepted.getLast? = some i ∧ pack i = .ok s.payload) (hc : s.fcode = 0) : Inv s where
  plenLegal _ := hl
  packed _ := hk
  idxInside := hf.idxInside
  headerFresh := hf.headerFresh
  escCollides := hf.escCollides
  accSums := hf.accSums
  faultHasCode := by rcases hf.inFrame with hp | hp | hp <;> simp [hp, hc]
  codeProduced := by simp [hc]

theorem ne_fault_of_inFrame (hf : s.inFrame) : s.phase ≠ .fault := by
  rcases hf with hp | hp | hp <;> simp [hp]

/-- A successful write leads to a later point of the same frame, or to IDLE at its end. -/
theorem Writes.inv (hw : Writes s b t) (hi : Inv s) (hf : s.inFrame) : Inv t := by
  have hc : t.fcode = 0 := hw.fcode.trans (fcode_of_inv hi (ne_fault_of_inFrame hf))
  by_cases hp : t.phase = .idle
  · exact inv_idle hp hc
  · exact inv_of_framing (hw.framing hp) (by rw [hw.plen]; exact hi.plenLegal hf)
      (by rw [hw.accepted, hw.payload]; exact hi.packed hf) hc

/-- Every step that writes keeps the invariant: a successful write by `Writes.inv`, a failed one by the fault entry. -/
theorem inv_of_step_txWrite {done : State} (hi : Inv s) (ho : s.ordinaryEdge) (hf : s.inFrame) (hr : s.levels.txReady = true)
    (h : step s = .next (s.txWrite done b).advance) : Inv (s.txWrite done b).advance := by
  rcases txWrite_cases s done b with ⟨he, -⟩ | ⟨-, e | e⟩
  · obtain ⟨b', t, hw⟩ := (framing_of_inv hi hf).writes ho ⟨hr, he⟩
    have ht : t = (s.txWrite done b).advance := Host.Outcome.next.inj (hw.steps.symm.trans h)
    exact ht ▸ hw.inv hi hf
  · rw [e]; exact inv_fault rfl (.inr rfl)
  · rw [e]; exact inv_fault rfl (.inr rfl)

/-- An accepted command is the packed payload of a fresh frame (41_frame_encoder.md R121). -/
theorem inv_loadPayload {i : Instr} (hk : pack i = .ok p) (hc : s.fcode = 0) : Inv ((s.record i).loadPayload p) := by
  have hl := length_of_pack hk
  refine inv_of_framing (framing_hdr rfl rfl rfl ?_) ?_ ⟨i, ?_, ?_⟩ hc
  · rcases hl with hl | hl | hl <;> simp [hl]
  · rcases hl with hl | hl | hl <;> simp [hl]
  · simp
  · rw [payload_loadPayload _ (length_le_of_pack hk), hk]

theorem step_keeps_inv (hi : Inv s) (h : step s = .next t) : Inv t := by
  cases step_next_cases h with
  | reset => exact inv_idle rfl rfl
  | tick => exact inv_congr hi rfl rfl rfl rfl rfl rfl rfl rfl
  | sched _ hm => rw [schedulerMove_block hm]; exact inv_congr hi rfl rfl rfl rfl rfl rfl rfl rfl
  | hold => exact inv_congr hi rfl rfl rfl rfl rfl rfl rfl rfl
  | accept _ hp _ hk =>
    have hc : s.fcode = 0 := fcode_of_inv hi (by simp [hp])
    exact inv_congr (inv_loadPayload (s := { s with program := s.program.tail }) hk hc) rfl rfl rfl rfl rfl rfl rfl rfl
  | illegal => exact inv_fault rfl (.inl rfl)
  | hdr ho hp hr => exact inv_of_step_txWrite hi ho (.inl hp) hr h
  | esc ho hp _ hr => exact inv_of_step_txWrite hi ho (.inr hp) hr h
  | payValue ho hp _ hr => exact inv_of_step_txWrite hi ho (.inr (.inl hp)) hr h
  | csumValue ho hp hr => exact inv_of_step_txWrite hi ho (.inr (.inr hp)) hr h

/-- Settles O1: in IDLE without a fault code nothing of R35 is left to check. -/
theorem resetSatisfiesInvariant : Obligations.ResetSatisfiesInvariant := ⟨inv_idle rfl rfl, rfl⟩

/-- Settles O26, by the inversion of a step: the four writing steps go through `Framing.writes`, the accept through `length_of_pack`. -/
theorem stepKeepsInvariant : Obligations.StepKeepsInvariant :=
  ⟨resetSatisfiesInvariant.1, fun _ _ hi h => step_keeps_inv hi h⟩

/-! ### The command at the port -/

theorem decodeCommand_vel (h : w.dtype = 0#3) : decodeCommand w = .vel w.x w.y w.th := by simp [decodeCommand, h]

theorem decodeCommand_rot (h : w.dtype = 1#3) : decodeCommand w = .rot w.calib := by simp [decodeCommand, h]

theorem decodeCommand_kick (h : w.dtype = 2#3) : decodeCommand w = .kick w.command := by simp [decodeCommand, h]

/-- An illegal command is its tag alone (40_packer.md R94). -/
theorem decodeCommand_illegal (h : 3#3 ≤ w.dtype) :
    decodeCommand w = if w.dtype = 3#3 then .bad3 else .badHigh (w.dtype.extractLsb' 0 2) := by
  have legal : ∀ d : Tag, 3#3 ≤ d → d ≠ 0#3 ∧ d ≠ 1#3 ∧ d ≠ 2#3 := by decide
  obtain ⟨h0, h1, h2⟩ := legal _ h
  simp only [decodeCommand, h0, h1, h2, if_false]

/-- Settles O12, by what a command is for each tag. -/
theorem unusedOperandPortsAreIgnored : Obligations.UnusedOperandPortsAreIgnored := by
  unfold Obligations.UnusedOperandPortsAreIgnored
  intro v w hd
  refine ⟨fun h hx hy hth => ?_, fun h hc => ?_, fun h hc => ?_, fun h => ?_⟩
  · rw [decodeCommand_vel h, decodeCommand_vel (hd ▸ h), hx, hy, hth]
  · rw [decodeCommand_rot h, decodeCommand_rot (hd ▸ h), hc]
  · rw [decodeCommand_kick h, decodeCommand_kick (hd ▸ h), hc]
  · rw [decodeCommand_illegal h, decodeCommand_illegal (hd ▸ h), hd]

theorem txWrite_advance_accepted {done : State} (h : done.accepted = s.accepted) :
    (s.txWrite done b).advance.accepted = s.accepted := by
  obtain ⟨-, e⟩ | ⟨-, e | e⟩ := txWrite_cases s done b <;> simp [e, h]

/-- Settles O30, by the inversion of a step: only the two ACCEPT cases touch the command stream. -/
theorem commandsAreAcceptedOnlyWhenReady : Obligations.CommandsAreAcceptedOnlyWhenReady := by
  unfold Obligations.CommandsAreAcceptedOnlyWhenReady
  intro s t h
  cases step_next_cases h with
  | reset => exact .inl rfl
  | tick => exact .inl rfl
  | sched _ hm => rw [schedulerMove_block hm]; exact .inl rfl
  | hold => exact .inl rfl
  | accept ho hp hv => exact .inr ⟨by simp [State.cmdReady, hp], hv, ho.2.2, rfl, rfl⟩
  | illegal ho hp hv => exact .inr ⟨by simp [State.cmdReady, hp], hv, ho.2.2, rfl, rfl⟩
  | hdr => exact .inl (txWrite_advance_accepted rfl)
  | esc => exact .inl (txWrite_advance_accepted rfl)
  | payValue => exact .inl (txWrite_advance_accepted rfl)
  | csumValue => exact .inl (txWrite_advance_accepted rfl)

/-! ### The outputs -/

theorem cmdReady_iff (s : State) : s.cmdReady = true ↔ s.phase = .idle := by simp [State.cmdReady]

theorem txValid_iff (s : State) : s.txValid = true ↔ s.inFrame := by simp [State.txValid, State.inFrame, or_assoc]

theorem busy_iff (s : State) : s.busy = true ↔ s.inFrame := txValid_iff s

theorem faultOut_iff (s : State) : s.faultOut = true ↔ s.phase = .fault := by simp [State.faultOut]

theorem not_inFrame_of_idle (h : s.phase = .idle) : ¬ s.inFrame := by simp [State.inFrame, h]

theorem txData_of_wireByte (h : s.wireByte = some b) : s.txData = b := by simp [State.txData, h]

theorem wireByte_of_hdr (h : s.phase = .hdr) : s.wireByte = some Config.header := by simp [State.wireByte, h]

theorem wireByte_of_currentByte (h : s.currentByte = some b) : s.wireByte = some (wireByteOf b s.esc) := by
  unfold State.wireByte
  split
  · next hp => simp [State.currentByte, hp] at h
  · rw [h]; rfl

theorem txData_of_escapeFirst (h : s.currentByte = some b) (hc : collide b = true) (he : s.esc = false) :
    s.txData = Config.escape := by
  rw [txData_of_wireByte (wireByte_of_currentByte h)]; simp [wireByteOf, escapeFirst, hc, he]

theorem txData_of_not_escapeFirst (h : s.currentByte = some b) (hn : ¬ (collide b = true ∧ s.esc = false)) : s.txData = xf b := by
  have he : escapeFirst b s.esc = false := by simpa [escapeFirst] using hn
  rw [txData_of_wireByte (wireByte_of_currentByte h)]; simp [wireByteOf, he]

/-- Settles O4, row by row of R33. -/
theorem outputsFollowTheState : Obligations.OutputsFollowTheState := by
  unfold Obligations.OutputsFollowTheState
  intro s
  refine ⟨cmdReady_iff s, txValid_iff s, busy_iff s, faultOut_iff s, rfl, ?_, ?_, ?_, ?_, ?_, ?_, fun _ _ _ => rfl⟩
  · rw [cmdReady_iff, txValid_iff]; exact fun h => not_inFrame_of_idle h.1 h.2
  · exact fun hp => txData_of_wireByte (wireByte_of_hdr hp)
  · exact fun b hp hb => txData_of_escapeFirst ((currentByte_of_pay hp).trans hb)
  · exact fun b hp hb => txData_of_not_escapeFirst ((currentByte_of_pay hp).trans hb)
  · exact fun hp => txData_of_escapeFirst (currentByte_of_csum hp)
  · exact fun hp => txData_of_not_escapeFirst (currentByte_of_csum hp)

/-! ### Backpressure -/

/-- Edges at a transport that is not ready only pass (41_frame_encoder.md R127). -/
theorem runFor_not_ready (hl : s.live = true) (hf : s.inFrame) (hp : s.pins = qs ++ rest)
    (hq : ∀ q ∈ qs, q.rst = false ∧ q.txReady = false) :
    runFor qs.length s = .next { s with pins := rest, edge := s.edge + qs.length } := by
  induction qs generalizing s with
  | nil => rw [List.nil_append] at hp; subst hp; rfl
  | cons q qs ih =>
    obtain ⟨hrst, hready⟩ := hq q List.mem_cons_self
    obtain ⟨ho, hr, -⟩ := busy_edge hl hf hp (by simp [undisturbed, hrst, hready])
    have hs : step s = .next s.advance := step_not_ready ho hf (hr.trans hready)
    rw [List.length_cons, runFor_succ hs, ih (s := s.advance) hl hf (by rw [State.advance_pins, hp]; rfl)
      fun q' h => hq q' (List.mem_cons_of_mem q h)]
    simp [State.advance, Nat.add_assoc, Nat.add_comm 1]

/-- Settles O20: the run under backpressure ends in the same state but for the pins and the number of the edge. -/
theorem backpressureKeepsTheOfferedByte : Obligations.BackpressureKeepsTheOfferedByte := by
  unfold Obligations.BackpressureKeepsTheOfferedByte
  intro s b qs rest hl hf hb hp hq
  exact ⟨_, runFor_not_ready hl hf hp hq, ⟨rfl, rfl, rfl, rfl, rfl, rfl, rfl, rfl, rfl⟩, (txValid_iff s).2 hf,
    txData_of_wireByte hb, rfl⟩

/-! ### What stops a step -/

theorem currentByte_eq_none_iff_of_pay (hp : s.phase = .pay) : s.currentByte = none ↔ 5#3 ≤ s.idx := by
  rw [currentByte_of_pay hp, PayloadBuffer.get_eq_none_iff]

/-- Settles O25, by the cases of a step of any state. -/
theorem stepStopsExactlyWhen : Obligations.StepStopsExactlyWhen := by
  unfold Obligations.StepStopsExactlyWhen
  refine ⟨fun s r => ⟨fun h => ?_, ?_⟩, fun s r => ⟨fun h => ?_, ?_⟩⟩
  · rcases step_all_cases s with ⟨t, e, -⟩ | ⟨ho, hp, hb, hr, e⟩ | ⟨-, -, e⟩
    · rw [e] at h; cases h
    · rw [e] at h; cases h
      exact ⟨ho, hp, hr, (currentByte_eq_none_iff_of_pay hp).1 hb, rfl⟩
    · rw [e] at h; cases h
  · rintro ⟨ho, hp, hr, hi, rfl⟩
    rw [step_no_byte ho hp ((currentByte_eq_none_iff_of_pay hp).2 hi), hr, if_pos rfl]
  · rcases step_all_cases s with ⟨t, e, -⟩ | ⟨-, -, -, -, e⟩ | ⟨hl, hr, e⟩
    · rw [e] at h; cases h
    · rw [e] at h; cases h
    · rw [e] at h; cases h; exact ⟨hl, hr, rfl⟩
  · rintro ⟨hl, hr, rfl⟩; exact step_before_reset hl hr

/-! ### The elements that reset leaves unspecified -/

/-- The inversion of a step, read the other way: each of its cases is the step. -/
theorem step_of_stepTo (h : StepTo s t) : step s = .next t := by
  cases h with
  | reset first later =>
    rcases hl : s.live with _ | _
    · exact step_first_reset hl (first hl)
    · exact step_reset hl (later hl).1 (later hl).2
  | tick hl hp hg => simp [step, hl, hostTurn_tick hp hg, takeLine_of_idle hp, hg, exec, execTick]
  | sched hl hm =>
    have ht : s.hostTurn = .moved t := by
      rcases hostTurn_cases s with ⟨_, _, _, _, _, _, hp, hg, -⟩ | ⟨u, hu, ht⟩ | ⟨hn, -⟩
      · obtain ⟨_, -, -, ⟨hf, -⟩ | ⟨-, he, -⟩⟩ := schedulerMove_cases hm
        · rw [hp] at hf; cases hf
        · rw [hg] at he; cases he
      · rw [ht, Option.some.inj (hu.symm.trans hm)]
      · rw [hn] at hm; cases hm
    simp [step, hl, ht]
  | hold ho still =>
    rcases still with ⟨hp, hv⟩ | hp | ⟨hv, hr⟩
    · rw [step_idle ho hp, hv]; rfl
    · exact step_fault ho hp
    · exact step_not_ready ho ((txValid_iff s).1 hv) hr
  | accept ho hp hv hk =>
    rw [step_idle ho hp, hv, if_pos rfl]
    rcases exec_command_idle (s := { s with program := s.program.tail }) s.levels.cmd hp with ⟨p, hk', e⟩ | ⟨hk', -⟩
    · rw [e, Except.ok.inj (hk.symm.trans hk')]; rfl
    · rw [hk] at hk'; cases hk'
  | illegal ho hp hv hk =>
    rw [step_idle ho hp, hv, if_pos rfl]
    rcases exec_command_idle (s := { s with program := s.program.tail }) s.levels.cmd hp with ⟨p, hk', -⟩ | ⟨-, e⟩
    · rw [hk] at hk'; cases hk'
    · rw [e]; rfl
  | hdr ho hp hr => rw [step_hdr ho hp, hr, if_pos rfl]
  | esc ho _ hb hr he => rw [step_currentByte ho hb, hr, he, if_pos rfl, if_pos rfl]
  | payValue ho hp hb hr he =>
    rw [step_currentByte ho hb, hr, he, if_pos rfl, if_neg (by simp), valueWrites_of_pay hp]
  | csumValue ho hp hr he =>
    rw [step_currentByte ho (currentByte_of_csum hp), hr, he, if_pos rfl, if_neg (by simp), valueWrites_of_csum hp]

/-- The state with other values in the four elements of 10_state.md R34. -/
def State.withUnspecified (s : State) (pb : PayloadBuffer) (plen idx : BitVec 3) (acc : Byte) : State :=
  { s with pb := pb, plen := plen, idx := idx, acc := acc }

/-- Two states alike but for elements that are written before they are next read: all four in IDLE and FAULT (an accept loads `pb`,
`plen` and `idx`), `acc` alone in HDR (the header step seeds it), none in PAY and CSUM. -/
inductive Alike (s : State) : State → Prop where
  | same : Alike s s
  | differ {pb : PayloadBuffer} {plen idx : BitVec 3} {acc : Byte} (unread : s.phase = .idle ∨ s.phase = .hdr ∨ s.phase = .fault)
      (loaded : s.phase = .hdr → pb = s.pb ∧ plen = s.plen ∧ idx = s.idx) : Alike s (s.withUnspecified pb plen idx acc)

/-- Both stop for one reason, or both go on to states that are alike. -/
inductive AlikeOutcomes : Host.Outcome State Fault Refusal → Host.Outcome State Fault Refusal → Prop where
  | next {u v : State} (alike : Alike u v) : AlikeOutcomes (.next u) (.next v)
  | fault (r : Fault) : AlikeOutcomes (.fault r) (.fault r)
  | refused (r : Refusal) : AlikeOutcomes (.refused r) (.refused r)

theorem AlikeOutcomes.refl : ∀ o, AlikeOutcomes o o
  | .next _ => .next .same
  | .fault r => .fault r
  | .refused r => .refused r

section Unspecified

variable {pb : PayloadBuffer} {plen idx : BitVec 3} {acc : Byte}

@[simp] theorem withUnspecified_phase : (s.withUnspecified pb plen idx acc).phase = s.phase := rfl
@[simp] theorem withUnspecified_program : (s.withUnspecified pb plen idx acc).program = s.program := rfl
@[simp] theorem withUnspecified_sched : (s.withUnspecified pb plen idx acc).sched = s.sched := rfl
@[simp] theorem withUnspecified_edge : (s.withUnspecified pb plen idx acc).edge = s.edge := rfl

theorem tickMove_withUnspecified (g : Scheduler) :
    (s.withUnspecified pb plen idx acc).tickMove g = (s.tickMove g).map (·.withUnspecified pb plen idx acc) := by
  unfold State.tickMove
  rcases g.stage with _ | _ | _ | _
  · rfl
  · rfl
  · rcases h : Config.sleepOver s.edge <;> simp [h, State.withUnspecified]
  · rfl

/-- The host does not look at the four elements. -/
theorem schedulerMove_withUnspecified :
    (s.withUnspecified pb plen idx acc).schedulerMove = s.schedulerMove.map (·.withUnspecified pb plen idx acc) := by
  simp only [State.schedulerMove, withUnspecified_sched, withUnspecified_phase, withUnspecified_program]
  rcases s.sched with _ | g
  · rfl
  · simp only [tickMove_withUnspecified]; split_ifs <;> rfl

theorem hostTurn_withUnspecified (h : s.hostTurn = .wait) : (s.withUnspecified pb plen idx acc).hostTurn = .wait := by
  have hm : s.schedulerMove = none := by
    rcases hostTurn_cases s with ⟨_, _, _, _, _, _, -, -, ht⟩ | ⟨_, -, ht⟩ | ⟨hm, -⟩
    · rw [ht] at h; cases h
    · rw [ht] at h; cases h
    · exact hm
  rcases hostTurn_cases (s.withUnspecified pb plen idx acc) with ⟨_, _, _, _, _, _, hp, hg, -⟩ | ⟨_, hm', -⟩ | ⟨-, hw⟩
  · rw [hostTurn_tick (s := s) hp hg] at h; cases h
  · rw [schedulerMove_withUnspecified, hm] at hm'; cases hm'
  · exact hw

theorem ordinaryEdge_withUnspecified (h : s.ordinaryEdge) : (s.withUnspecified pb plen idx acc).ordinaryEdge :=
  ⟨h.1, hostTurn_withUnspecified h.2.1, h.2.2⟩

/-- `tx_data` reads `pb`, `idx` and `acc` in PAY and CSUM only (10_state.md R33). -/
theorem outputs_withUnspecified (h : s.phase = .idle ∨ s.phase = .hdr ∨ s.phase = .fault) :
    (s.withUnspecified pb plen idx acc).outputs = s.outputs := by
  have hw : (s.withUnspecified pb plen idx acc).wireByte = s.wireByte := by
    rcases h with h | h | h <;> simp [State.wireByte, State.currentByte, h]
  have hd : (s.withUnspecified pb plen idx acc).txData = s.txData := by
    unfold State.txData; rw [hw]; rfl
  simp only [State.outputs, hd]; rfl

end Unspecified

/-- The header step seeds `acc`; a failed write leaves it unread in FAULT. -/
theorem txWrite_header_alike (s : State) (acc : Byte) :
    Alike (s.txWrite s.headerWrites Config.header).advance
      (State.txWrite { s with acc := acc } (State.headerWrites { s with acc := acc }) Config.header).advance := by
  unfold State.txWrite
  rw [show State.levels { s with acc := acc } = s.levels from rfl]
  split_ifs
  · exact .differ (.inr (.inr rfl)) (fun h => by cases h)
  · exact .differ (.inr (.inr rfl)) (fun h => by cases h)
  · exact .same

/-- A step from a state with unread elements is the same case of the inversion from any state alike. -/
theorem stepTo_withUnspecified {pb : PayloadBuffer} {plen idx : BitVec 3} {acc : Byte}
    (hu : s.phase = .idle ∨ s.phase = .hdr ∨ s.phase = .fault)
    (hl : s.phase = .hdr → pb = s.pb ∧ plen = s.plen ∧ idx = s.idx) (h : StepTo s u) :
    ∃ v, StepTo (s.withUnspecified pb plen idx acc) v ∧ Alike u v := by
  cases h with
  | reset first later =>
    exact ⟨_, .reset first fun h => ⟨hostTurn_withUnspecified (later h).1, (later h).2⟩,
      .differ (.inl rfl) (fun h => by cases h)⟩
  | tick live hp hg => exact ⟨_, .tick live hp hg, .differ hu hl⟩
  | sched live hm =>
    refine ⟨u.withUnspecified pb plen idx acc, .sched live (by rw [schedulerMove_withUnspecified, hm]; rfl), ?_⟩
    rw [schedulerMove_block hm]; exact .differ hu hl
  | hold ho still => exact ⟨_, .hold (ordinaryEdge_withUnspecified ho) still, .differ hu hl⟩
  | accept ho hp hv hk =>
    exact ⟨_, .accept (ordinaryEdge_withUnspecified ho) hp hv hk, .differ (.inr (.inl rfl)) fun _ => ⟨rfl, rfl, rfl⟩⟩
  | illegal ho hp hv hk =>
    exact ⟨_, .illegal (ordinaryEdge_withUnspecified ho) hp hv hk, .differ (.inr (.inr rfl)) (fun h => by cases h)⟩
  | hdr ho hp hr =>
    obtain ⟨rfl, rfl, rfl⟩ := hl hp
    exact ⟨_, .hdr (ordinaryEdge_withUnspecified ho) hp hr, txWrite_header_alike s acc⟩
  | esc _ hp => rcases hp with hp | hp <;> simp [hp] at hu
  | payValue _ hp => simp [hp] at hu
  | csumValue _ hp => simp [hp] at hu

theorem step_alike (h : Alike s t) : AlikeOutcomes (step s) (step t) := by
  cases h with
  | same => exact .refl _
  | @differ pb plen idx acc hu hl =>
    rcases step_all_cases s with ⟨u, e, hc⟩ | ⟨-, hp, -⟩ | ⟨hd, hr, e⟩
    · obtain ⟨v, hc', ha⟩ := stepTo_withUnspecified hu hl hc
      rw [e, step_of_stepTo hc']; exact .next ha
    · simp [hp] at hu
    · rw [e, step_before_reset (s := s.withUnspecified pb plen idx acc) hd hr]; exact .refused _

theorem runFor_alike (n : Nat) (h : Alike s t) : AlikeOutcomes (runFor n s) (runFor n t) := by
  induction n generalizing s t with
  | zero => exact .next h
  | succ n ih =>
    have ho := step_alike h
    simp only [runFor]
    generalize step s = o, step t = o' at ho
    cases ho with
    | next ha => exact ih ha
    | fault r => exact .fault r
    | refused r => exact .refused r

/-- Alike states show the same at every port and on both streams. -/
theorem observe_alike {o o' : Host.Outcome State Fault Refusal} (h : AlikeOutcomes o o') : observe o = observe o' := by
  cases h with
  | next ha =>
    cases ha with
    | same => rfl
    | differ hu => simp only [observe, outputs_withUnspecified hu]; rfl
  | fault r => rfl
  | refused r => rfl

/-- Settles O32: two machines in IDLE that differ only there are alike, steps keep that, and alike machines show the same. -/
theorem unspecifiedElementsAreNeverObserved : Obligations.UnspecifiedElementsAreNeverObserved := by
  unfold Obligations.UnspecifiedElementsAreNeverObserved
  intro s t hp hd n
  have ha : Alike s t := by
    rw [hd]; exact .differ (.inl hp) (fun h => by rw [hp] at h; cases h)
  exact observe_alike (runFor_alike n ha)

end Sys2Proof.Machine
end

section
/-! PROOFS. The two streams (20_memory.md): the wire stream is the frames in order, a step writes at most `tx_data`, the command port is
not looked at outside IDLE, and a program of valid commands is written whole. -/

namespace Sys2Proof.Machine

variable {s t u : State} {b : Byte} {p : List Byte} {qs rest : List Pins}

/-! ### The wire stream as frames -/

theorem remaining_of_idle (hp : s.phase = .idle) : s.remaining = [] := by simp [State.remaining, hp]

@[simp] theorem State.advance_remaining (s : State) : s.advance.remaining = s.remaining := rfl

theorem frameOfCommand_of_pack {i : Instr} (hk : pack i = .ok p) : frameOfCommand i = frame p := by simp [frameOfCommand, hk]

theorem frameOfCommand_of_error {i : Instr} {e : PackError} (hk : pack i = .error e) : frameOfCommand i = [] := by
  simp [frameOfCommand, hk]

/-- After an accept the whole frame of the payload is still to be written. -/
theorem remaining_loadPayload (s : State) (h : p.length ≤ 5) : (s.loadPayload p).remaining = frame p := by
  show frame (s.loadPayload p).payload = frame p
  rw [payload_loadPayload s h]

section Framed

variable {a : List Instr} {w : List Byte}

theorem framedSince_of_idle (hp : s.phase = .idle) : State.framedSince s.accepted s.wire s :=
  ⟨[], by simp, by simp [remaining_of_idle hp]⟩

/-- A step that accepts nothing keeps it if what it writes is what it takes off the rest of the frame. -/
theorem framedSince_of_written (h : State.framedSince a w s) (ha : t.accepted = s.accepted)
    (hw : t.wire ++ t.remaining = s.wire ++ s.remaining) : State.framedSince a w t := by
  obtain ⟨cs, hcs, hf⟩ := h
  exact ⟨cs, ha.trans hcs, hw.trans hf⟩

/-- An accept in IDLE keeps it: the accepted command's frame is what is then to be written. -/
theorem framedSince_of_accepted {i : Instr} (h : State.framedSince a w s) (hp : s.phase = .idle)
    (ha : t.accepted = s.accepted ++ [i]) (hw : t.wire = s.wire) (hr : t.remaining = frameOfCommand i) :
    State.framedSince a w t := by
  obtain ⟨cs, hcs, hf⟩ := h
  rw [remaining_of_idle hp, List.append_nil] at hf
  exact ⟨cs ++ [i], by rw [ha, hcs, List.append_assoc], by rw [hw, hf, hr]; simp [List.append_assoc]⟩

theorem Writes.framedSince (hw : Writes s b t) (h : State.framedSince a w s) : State.framedSince a w t :=
  framedSince_of_written h hw.accepted (by rw [hw.written, hw.left, List.append_assoc]; rfl)

/-- Inside a frame, a step at a ready transport that does not fail is a successful write. -/
theorem writes_of_step (hi : Inv s) (ho : s.ordinaryEdge) (hf : s.inFrame) (hr : s.levels.txReady = true) (hn : ¬ s.failedWrite)
    (h : step s = .next t) : ∃ b, Writes s b t := by
  have he : s.levels.txErr = false := by
    by_contra hc
    exact hn ⟨(txValid_iff s).2 hf, hr, by simpa using hc⟩
  obtain ⟨b, u, hw⟩ := (framing_of_inv hi hf).writes ho ⟨hr, he⟩
  have hu : u = t := Host.Outcome.next.inj (hw.steps.symm.trans h)
  exact ⟨b, hu ▸ hw⟩

/-- Every step keeps it but a RESET and a failed write. -/
theorem step_keeps_framedSince (hi : Inv s) (hf : State.framedSince a w s) (h : step s = .next t) (hreset : ¬ s.resetEdge)
    (hfail : ¬ s.failedWrite) : State.framedSince a w t := by
  have written (ho : s.ordinaryEdge) (hin : s.inFrame) (hr : s.levels.txReady = true) : State.framedSince a w t := by
    obtain ⟨b, hw⟩ := writes_of_step hi ho hin hr hfail h
    exact hw.framedSince hf
  cases step_next_cases h with
  | reset first later =>
    exfalso
    rcases hl : s.live with _ | _
    · exact hreset (.inl ⟨hl, first hl⟩)
    · exact hreset (.inr ⟨hl, later hl⟩)
  | tick => exact framedSince_of_written hf rfl rfl
  | sched _ hm => rw [schedulerMove_block hm]; exact framedSince_of_written hf rfl rfl
  | hold => exact framedSince_of_written hf rfl rfl
  | accept _ hp _ hk =>
    refine framedSince_of_accepted hf hp rfl rfl ?_
    rw [State.advance_remaining, remaining_loadPayload _ (length_le_of_pack hk), frameOfCommand_of_pack hk]
  | illegal _ hp _ hk => exact framedSince_of_accepted hf hp rfl rfl (frameOfCommand_of_error hk).symm
  | hdr ho hp hr => exact written ho (.inl hp) hr
  | esc ho hp _ hr => exact written ho (.inr hp) hr
  | payValue ho hp _ hr => exact written ho (.inr (.inl hp)) hr
  | csumValue ho hp hr => exact written ho (.inr (.inr hp)) hr

end Framed

/-- Settles O42, by the inversion of a step: an accept adds a command and its frame to be written, a successful write moves a byte from
what is to be written to the wire. -/
theorem wireStreamIsTheFramesInOrder : Obligations.WireStreamIsTheFramesInOrder :=
  ⟨fun _ hp => framedSince_of_idle hp, fun _ _ _ _ hi hf h hreset hfail => step_keeps_framedSince hi hf h hreset hfail⟩

/-! ### One byte at a step -/

/-- A transport write puts at most its byte on the wire (20_memory.md R43). -/
theorem txWrite_advance_wire {done : State} (h : done.wire = s.wire) :
    (s.txWrite done b).advance.wire = s.wire ∨ (s.txWrite done b).advance.wire = s.wire ++ [b] := by
  obtain ⟨-, e⟩ | ⟨-, e | e⟩ := txWrite_cases s done b <;> simp [e, h]

theorem wireByte_of_escapeFirst (hb : s.currentByte = some b) (he : escapeFirst b s.esc = true) :
    s.wireByte = some Config.escape := by
  rw [wireByte_of_currentByte hb, wireByteOf, if_pos he]

theorem wireByte_of_value (hb : s.currentByte = some b) (he : escapeFirst b s.esc = false) : s.wireByte = some (xf b) := by
  rw [wireByte_of_currentByte hb, wireByteOf, he]; rfl

/-- Settles O29, by the inversion of a step: in each of the four writing steps the byte written is the byte offered. -/
theorem stepWritesAtMostTxData : Obligations.StepWritesAtMostTxData := by
  unfold Obligations.StepWritesAtMostTxData
  intro s t h
  have written {b : Byte} {done : State} (ho : s.ordinaryEdge) (hf : s.inFrame) (hr : s.levels.txReady = true)
      (hb : s.wireByte = some b) (hd : done.wire = s.wire) :
      (s.txWrite done b).advance.wire = s.wire ∨ (s.txValid = true ∧ s.levels.txReady = true ∧ s.levels.rst = false ∧
        (s.txWrite done b).advance.wire = s.wire ++ [s.txData]) := by
    rw [txData_of_wireByte hb]
    exact (txWrite_advance_wire hd).imp id fun e => ⟨(txValid_iff s).2 hf, hr, ho.2.2, e⟩
  cases step_next_cases h with
  | reset => exact .inl rfl
  | tick => exact .inl rfl
  | sched _ hm => rw [schedulerMove_block hm]; exact .inl rfl
  | hold => exact .inl rfl
  | accept => exact .inl rfl
  | illegal => exact .inl rfl
  | hdr ho hp hr => exact written ho (.inl hp) hr (wireByte_of_hdr hp) rfl
  | esc ho hp hb hr he => exact written ho (.inr hp) hr (wireByte_of_escapeFirst hb he) rfl
  | payValue ho hp hb hr he => exact written ho (.inr (.inl hp)) hr (wireByte_of_value hb he) rfl
  | csumValue ho hp hr he => exact written ho (.inr (.inr hp)) hr (wireByte_of_value (currentByte_of_csum hp) he) rfl

/-! ### The command port outside IDLE -/

/-- The state with other levels at the coming edges and another program of the host. -/
def State.withPort (s : State) (pins : List Pins) (program : List Line) : State := { s with pins := pins, program := program }

section Port

variable {pins : List Pins} {program : List Line}

theorem sameBlock_withPort (s : State) (pins : List Pins) (program : List Line) : SameBlock s (s.withPort pins program) :=
  ⟨rfl, rfl, rfl, rfl, rfl, rfl, rfl, rfl, rfl⟩

/-- Outside IDLE the host turns to the scheduler alone. -/
theorem hostTurn_eq_wait_iff (hp : s.phase ≠ .idle) : s.hostTurn = .wait ↔ s.schedulerMove = none := by
  rcases hostTurn_cases s with ⟨_, _, _, _, _, _, hi, -, -⟩ | ⟨t, hm, ht⟩ | ⟨hm, ht⟩
  · exact absurd hi hp
  · simp [hm, ht]
  · simp [hm, ht]

/-- Outside IDLE the scheduler does not look at the pins, and it looks at the program only to drop it. -/
theorem schedulerMove_withPort (hp : s.phase ≠ .idle) :
    (s.withPort pins program).schedulerMove = s.schedulerMove.map (·.withPort pins []) := by
  simp only [State.schedulerMove, State.withPort, hp, false_and, if_false]
  rcases s.sched with _ | g
  · rfl
  · simp only; split_ifs <;> rfl

theorem hostTurn_withPort (hp : s.phase ≠ .idle) (h : s.hostTurn = .wait) : (s.withPort pins program).hostTurn = .wait := by
  rw [hostTurn_eq_wait_iff hp] at h
  rw [hostTurn_eq_wait_iff (s := s.withPort pins program) hp, schedulerMove_withPort hp, h]; rfl

theorem ordinaryEdge_withPort (hp : s.phase ≠ .idle) (hr : (s.withPort pins program).levels.rst = s.levels.rst)
    (h : s.ordinaryEdge) : (s.withPort pins program).ordinaryEdge :=
  ⟨h.1, hostTurn_withPort hp h.2.1, hr.trans h.2.2⟩

/-- The transport's answer decides a write, whatever else the environment is. -/
theorem sameBlock_txWrite {done : State} (he : (s.withPort pins program).levels.txErr = s.levels.txErr) :
    SameBlock (s.txWrite done b).advance ((s.withPort pins program).txWrite (done.withPort pins program) b).advance := by
  unfold State.txWrite
  rw [he, show (s.withPort pins program).edge = s.edge from rfl]
  split_ifs <;> exact ⟨rfl, rfl, rfl, rfl, rfl, rfl, rfl, rfl, rfl⟩

/-- Outside IDLE a step is the same case of the inversion whatever is at the command port. -/
theorem stepTo_withPort (hp : s.phase ≠ .idle) (hl : s.live = true)
    (hrst : (s.withPort pins program).levels.rst = s.levels.rst)
    (hready : (s.withPort pins program).levels.txReady = s.levels.txReady)
    (herr : (s.withPort pins program).levels.txErr = s.levels.txErr) (h : StepTo s u) :
    ∃ v, StepTo (s.withPort pins program) v ∧ SameBlock u v := by
  have edge (ho : s.ordinaryEdge) := ordinaryEdge_withPort (pins := pins) (program := program) hp hrst ho
  cases h with
  | reset first later =>
    obtain ⟨hw, hr⟩ := later hl
    exact ⟨_, .reset (fun hd => by rw [show s.live = false from hd] at hl; cases hl)
      fun _ => ⟨hostTurn_withPort hp hw, hrst.trans hr⟩, sameBlock_withPort _ pins.tail program⟩
  | tick _ hi => exact absurd hi hp
  | sched live hm =>
    exact ⟨u.withPort pins [], .sched live (by rw [schedulerMove_withPort hp, hm]; rfl), sameBlock_withPort u pins []⟩
  | hold ho still =>
    refine ⟨_, .hold (edge ho) ?_, sameBlock_withPort _ pins.tail program⟩
    rcases still with ⟨hi, -⟩ | hf | ⟨hv, hr⟩
    · exact absurd hi hp
    · exact .inr (.inl hf)
    · exact .inr (.inr ⟨hv, hready.trans hr⟩)
  | accept _ hi => exact absurd hi hp
  | illegal _ hi => exact absurd hi hp
  | hdr ho hh hr => exact ⟨_, .hdr (edge ho) hh (hready.trans hr), sameBlock_txWrite herr⟩
  | esc ho hh hb hr he => exact ⟨_, .esc (edge ho) hh hb (hready.trans hr) he, sameBlock_txWrite herr⟩
  | payValue ho hh hb hr he => exact ⟨_, .payValue (edge ho) hh hb (hready.trans hr) he, sameBlock_txWrite herr⟩
  | csumValue ho hh hr he => exact ⟨_, .csumValue (edge ho) hh (hready.trans hr) he, sameBlock_txWrite herr⟩

end Port

/-- Settles O31, by the inversion of a step and its converse: no case that is left outside IDLE reads the command port. -/
theorem busyBlockIgnoresTheCommandPort : Obligations.BusyBlockIgnoresTheCommandPort := by
  unfold Obligations.BusyBlockIgnoresTheCommandPort
  intro s t u hp hl ht hrst hready herr h
  have ht : t = s.withPort t.pins t.program := ht
  rw [ht] at hrst hready herr ⊢
  obtain ⟨v, hv, hb⟩ := stepTo_withPort hp hl hrst hready herr (step_next_cases h)
  exact ⟨v, step_of_stepTo hv, hb⟩

/-! ### A program written whole -/

/-- A run of `n` edges from `s` to `t` without a fault, at which the bytes `bs` have joined the wire stream and the commands `cs` have left
the host's program for the command stream. -/
structure Progress (s : State) (n : Nat) (bs : List Byte) (cs : List Instr) (t : State) : Prop where
  runs : runFor n s = .next t
  wire : t.wire = s.wire ++ bs
  accepted : t.accepted = s.accepted ++ cs
  program : t.program = s.program.drop cs.length
  pins : t.pins = s.pins.drop n
  fcode : t.fcode = s.fcode
  sched : t.sched = s.sched
  live : t.live = s.live

theorem Progress.refl (s : State) : Progress s 0 [] [] s :=
  ⟨rfl, (List.append_nil _).symm, (List.append_nil _).symm, rfl, rfl, rfl, rfl, rfl⟩

theorem Progress.trans {m n : Nat} {bs bs' : List Byte} {cs cs' : List Instr} (h : Progress s m bs cs t)
    (h' : Progress t n bs' cs' u) : Progress s (m + n) (bs ++ bs') (cs ++ cs') u where
  runs := (runFor_add h.runs).trans h'.runs
  wire := by rw [h'.wire, h.wire, List.append_assoc]
  accepted := by rw [h'.accepted, h.accepted, List.append_assoc]
  program := by rw [h'.program, h.program, List.drop_drop, List.length_append]
  pins := by rw [h'.pins, h.pins, List.drop_drop]
  fcode := h'.fcode.trans h.fcode
  sched := h'.sched.trans h.sched
  live := h'.live.trans h.live

/-- An edge that only passes. -/
theorem progress_of_advance (h : step s = .next s.advance) : Progress s 1 [] [] s.advance :=
  ⟨runFor_one h, (List.append_nil _).symm, (List.append_nil _).symm, rfl, List.drop_one.symm, rfl, rfl, rfl⟩

/-- The edge of a successful write. -/
theorem Writes.progress (h : Writes s b t) : Progress s 1 [b] [] t :=
  ⟨runFor_one h.steps, h.written, h.accepted.trans (List.append_nil _).symm, h.program, h.pins.trans List.drop_one.symm, h.fcode,
    h.sched, h.live⟩

/-- The edges used from a script leave the rest of it. -/
theorem Progress.pins_left {used left : List Pins} {bs : List Byte} {cs : List Instr} (h : Progress s used.length bs cs t)
    (hp : s.pins = used ++ left ++ rest) : t.pins = left ++ rest := by
  rw [h.pins, hp, List.append_assoc, List.drop_left]

theorem readyEdges_cons (q : Pins) (qs : List Pins) : readyEdges (q :: qs) = readyEdges qs + if q.txReady then 1 else 0 := by
  simp [readyEdges, List.countP_cons]

theorem readyEdges_append (qs rs : List Pins) : readyEdges (qs ++ rs) = readyEdges qs + readyEdges rs := by
  simp [readyEdges]

/-- Inside a frame, undisturbed edges of which enough are ready complete it: one ready edge for each byte still to be written. -/
theorem Framing.completes (hf : Framing s) (hl : s.live = true) (hp : s.pins = qs ++ rest) (hq : ∀ q ∈ qs, undisturbed q = true)
    (hr : s.remaining.length ≤ readyEdges qs) :
    ∃ used left t, qs = used ++ left ∧ readyEdges used = s.remaining.length ∧ t.phase = .idle ∧
      Progress s used.length s.remaining [] t := by
  induction qs generalizing s with
  | nil => exact absurd (List.length_eq_zero_iff.1 (Nat.le_zero.1 hr)) hf.remaining_ne_nil
  | cons q qs ih =>
    obtain ⟨ho, hready, herr⟩ := busy_edge hl hf.inFrame hp (hq q List.mem_cons_self)
    have hq' : ∀ r ∈ qs, undisturbed r = true := fun r h => hq r (List.mem_cons_of_mem q h)
    rw [readyEdges_cons] at hr
    rcases hc : q.txReady with _ | _
    · have hs := progress_of_advance (step_not_ready ho hf.inFrame (hready.trans hc))
      obtain ⟨used, left, t, rfl, hu, ht, hrun⟩ :=
        ih (s := s.advance) hf.advance hl (by rw [State.advance_pins, hp]; rfl) hq' (by rw [hc] at hr; exact hr)
      refine ⟨q :: used, left, t, rfl, by rw [readyEdges_cons, hc, hu]; rfl, ht, ?_⟩
      rw [List.length_cons, Nat.add_comm]; exact hs.trans hrun
    · obtain ⟨b, t, hw⟩ := hf.writes ho ⟨hready.trans hc, herr hc⟩
      rw [hw.left] at hr ⊢
      by_cases hi : t.phase = .idle
      · rw [remaining_of_idle hi]
        exact ⟨[q], qs, t, rfl, by rw [readyEdges_cons, hc]; rfl, hi, hw.progress⟩
      · obtain ⟨used, left, u, rfl, hu, hui, hrun⟩ := ih (hw.framing hi) (hw.live.trans hl) (by rw [hw.pins, hp]; rfl) hq'
          (by rw [hc, if_pos rfl, List.length_cons] at hr; omega)
        refine ⟨q :: used, left, u, rfl, by rw [readyEdges_cons, hc, hu]; rfl, hui, ?_⟩
        rw [List.length_cons, Nat.add_comm]; exact hw.progress.trans hrun

/-- A command that a host may offer is packed (42_host_scheduler.md R157, 40_packer.md R90). -/
theorem pack_of_hostMayOffer {w : CmdWires} (h : hostMayOffer (.command w)) : ∃ p, pack (decodeCommand w) = .ok p := by
  rcases h with h | h | h
  · exact ⟨_, by rw [decodeCommand_vel h]; rfl⟩
  · exact ⟨_, by rw [decodeCommand_rot h]; rfl⟩
  · exact ⟨_, by rw [decodeCommand_kick h]; rfl⟩

/-- Without a scheduler, a host with a command next makes no move of its own and has the command at the port (log entry 4). -/
theorem commandNext_edge {w : CmdWires} {lines : List Line} (hs : s.sched = none) (hg : s.program = .command w :: lines) :
    s.hostTurn = .wait ∧ s.levels.rst = s.rawPins.rst ∧ s.levels.cmdValid = true ∧ s.levels.cmd = w := by
  have hm : s.schedulerMove = none := schedulerMove_of_not_hosted (hosted_none hs)
  have hn := commandNext_command hg
  refine ⟨?_, by simp [levels_rst, hosted_none hs], by simp [cmdValid_none hs, hn], ?_⟩
  · rcases hostTurn_cases s with ⟨_, _, _, _, _, _, -, hg', -⟩ | ⟨t, ht, -⟩ | ⟨-, hw⟩
    · rw [hg] at hg'; cases hg'
    · rw [hm] at ht; cases ht
    · exact hw
  · obtain ⟨lines', hg'⟩ := cmd_of_commandNext hn
    rw [hg] at hg'; cases hg'; rfl

/-- An accepted payload is about to be framed. -/
theorem framing_loadPayload (s : State) (h : p.length ≤ 5) : Framing (s.loadPayload p) :=
  framing_hdr rfl rfl rfl (by simp only [State.loadPayload_plen, BitVec.toNat_ofNat]; omega)

/-- The edge in IDLE at which the host's next command is accepted: its frame is then to be written (41_frame_encoder.md R121). -/
theorem offered_command_is_accepted {w : CmdWires} {lines : List Line} (hl : s.live = true) (hp : s.phase = .idle)
    (hs : s.sched = none) (hg : s.program = .command w :: lines) (hw : hostMayOffer (.command w)) (hr : s.rawPins.rst = false) :
    ∃ t, Framing t ∧ t.remaining = frameOf w ∧ Progress s 1 [] [decodeCommand w] t := by
  obtain ⟨hturn, hrst, hv, rfl⟩ := commandNext_edge hs hg
  obtain ⟨p, hk⟩ := pack_of_hostMayOffer hw
  have hlen := length_le_of_pack hk
  have hstep := step_of_stepTo (.accept ⟨hl, hturn, hrst.trans hr⟩ hp hv hk)
  refine ⟨_, ?framing, ?remaining, runFor_one hstep, (List.append_nil _).symm, rfl, List.drop_one.symm, List.drop_one.symm,
    rfl, rfl, rfl⟩
  case framing => exact (framing_loadPayload _ hlen).advance
  case remaining =>
    rw [State.advance_remaining, remaining_loadPayload _ hlen]; exact (frameOfCommand_of_pack hk).symm

/-- In IDLE, undisturbed edges of which enough are ready take the host's next command and write its frame: a ready edge for each byte,
and at most one more, as the transport may be ready at the accept too. -/
theorem offered_command_is_written {w : CmdWires} {lines : List Line} (hl : s.live = true) (hp : s.phase = .idle)
    (hs : s.sched = none) (hg : s.program = .command w :: lines) (hw : hostMayOffer (.command w)) (hpins : s.pins = qs ++ rest)
    (hq : ∀ q ∈ qs, undisturbed q = true) (hr : (frameOf w).length + 1 ≤ readyEdges qs) :
    ∃ used left t, qs = used ++ left ∧ readyEdges used ≤ (frameOf w).length + 1 ∧ t.phase = .idle ∧
      Progress s used.length (frameOf w) [decodeCommand w] t := by
  cases qs with
  | nil => simp [readyEdges] at hr
  | cons q qs =>
    have hrst : s.rawPins.rst = false := by
      have h := hq q List.mem_cons_self
      simp only [undisturbed, Bool.and_eq_true, Bool.not_eq_true'] at h
      rw [rawPins_cons hpins, h.1]
    obtain ⟨t, hf, hrem, ha⟩ := offered_command_is_accepted hl hp hs hg hw hrst
    have hone : (if q.txReady then 1 else 0) ≤ 1 := by split <;> omega
    rw [readyEdges_cons] at hr
    obtain ⟨used, left, u, rfl, hused, hu, hrun⟩ := hf.completes (ha.live.trans hl) (by rw [ha.pins, hpins]; rfl)
      (fun r h => hq r (List.mem_cons_of_mem q h)) (by rw [hrem]; omega)
    rw [hrem] at hused hrun
    refine ⟨q :: used, left, u, rfl, by rw [readyEdges_cons]; omega, hu, ?_⟩
    rw [List.length_cons, Nat.add_comm]; exact ha.trans hrun

/-- A number of ready edges that is enough for a program: one for each byte of its frames and one for each accept. -/
def edgesEnough (ws : List CmdWires) : Nat := (ws.flatMap frameOf).length + ws.length

theorem edgesEnough_cons (w : CmdWires) (ws : List CmdWires) :
    edgesEnough (w :: ws) = (frameOf w).length + 1 + edgesEnough ws := by
  simp only [edgesEnough, List.flatMap_cons, List.length_append, List.length_cons]; omega

/-- By induction on the program: its first command takes the first edges, the rest of it those left. -/
theorem program_is_written {ws : List CmdWires} (hws : ∀ w ∈ ws, hostMayOffer (.command w)) (hl : s.live = true)
    (hp : s.phase = .idle) (hs : s.sched = none) (hg : s.program = ws.map .command) (hpins : s.pins = qs ++ rest)
    (hq : ∀ q ∈ qs, undisturbed q = true) (hr : edgesEnough ws ≤ readyEdges qs) :
    ∃ n t, n ≤ qs.length ∧ t.phase = .idle ∧ Progress s n (ws.flatMap frameOf) (ws.map decodeCommand) t := by
  induction ws generalizing s qs with
  | nil => exact ⟨0, s, Nat.zero_le _, hp, .refl s⟩
  | cons w ws ih =>
    rw [edgesEnough_cons] at hr
    obtain ⟨used, left, t, rfl, hused, ht, hrun⟩ :=
      offered_command_is_written hl hp hs hg (hws w List.mem_cons_self) hpins hq (by omega)
    rw [readyEdges_append] at hr
    obtain ⟨n, u, hn, hu, hrun'⟩ := ih (fun x hx => hws x (List.mem_cons_of_mem w hx)) (hrun.live.trans hl) ht
      (hrun.sched.trans hs) (by rw [hrun.program, hg]; rfl) (hrun.pins_left hpins) (fun r h => hq r (List.mem_append_right used h))
      (by omega)
    exact ⟨used.length + n, u, by rw [List.length_append]; omega, hu, hrun.trans hrun'⟩

/-- Settles O53: one ready edge for each byte and for each accept is enough. -/
theorem programIsWrittenAsItsFrames : Obligations.ProgramIsWrittenAsItsFrames := by
  unfold Obligations.ProgramIsWrittenAsItsFrames
  intro ws hws
  refine ⟨edgesEnough ws, fun s qs rest hl hp hs hg hpins hq hr => ?_⟩
  obtain ⟨n, t, hn, ht, hrun⟩ := program_is_written hws hl hp hs hg hpins hq hr
  exact ⟨n, t, hn, hrun.runs, ht, by rw [hrun.program, hg]; simp, hrun.wire, hrun.accepted, hrun.fcode⟩

end Sys2Proof.Machine
end

section
/-! PROOFS. The three encodings (30_encoding.md): what is encoded is decoded again and nothing else is, which bytes of the payloads and
checksums collide, and the wire lengths that follow. -/

namespace Sys2Proof.Machine

variable {i : Instr} {p : List Byte}

/-! ### Codes that are read back -/

/-- The tag of an illegal command is its row's bit pattern `1gg` (30_encoding.md R72). -/
theorem decodeCommand_ofTag_high (g : BitVec 2) : decodeCommand (CmdWires.ofTag (0b1#1 ++ g)) = .badHigh g := by
  revert g; decide

theorem decodeSymbol_xvalByte (v : BitVec 2) : decodeSymbol .afterEscape (xvalByte v) = .ok (.xval v) := by
  revert v; decide

/-- Inside a frame a byte that does not collide stands for itself (30_encoding.md R68). -/
theorem decodeSymbol_of_litLegal {b : Byte} (h : Instr.litLegal b = true) : decodeSymbol .inFrame b = .ok (.lit b) := by
  obtain ⟨hh, he⟩ : b ≠ Config.header ∧ b ≠ Config.escape := by simpa [Instr.litLegal] using h
  simp only [decodeSymbol, hh, he, if_false]

/-- Settles O43, row by row. -/
theorem decodeOfEncode : Obligations.DecodeOfEncode := by
  unfold Obligations.DecodeOfEncode
  intro i hwf
  cases i with
  | vel x y th => exact decodePayload_encodeVelocity x y th
  | rot calib => exact decodePayload_encodeRotation calib
  | kick command => exact decodePayload_encodeKicker command
  | bad3 => rfl
  | badHigh g => exact congrArg Except.ok (decodeCommand_ofTag_high g)
  | hdr => rfl
  | esc => rfl
  | xval v => exact decodeSymbol_xvalByte v
  | lit b => exact decodeSymbol_of_litLegal hwf
  | tick x y th calib command => rfl

/-- A host's line is read back (30_encoding.md R71, R76). -/
theorem decodeLine_of_lineOf {l : Line} (h : lineOf i = some l) : decodeLine l = i := by
  cases i with
  | vel x y th => cases h; exact decodeCommand_vel rfl
  | rot calib => cases h; exact decodeCommand_rot rfl
  | kick command => cases h; exact decodeCommand_kick rfl
  | bad3 => cases h; rfl
  | badHigh g => cases h; exact decodeCommand_ofTag_high g
  | hdr => cases h
  | esc => cases h
  | xval v => cases h
  | lit b => cases h
  | tick x y th calib command => cases h; rfl

/-- Settles O45, by the instruction that the line presents. -/
theorem decodeOfHostLine : Obligations.DecodeOfHostLine := by
  unfold Obligations.DecodeOfHostLine
  exact fun _ _ h => congrArg Except.ok (decodeLine_of_lineOf h)

/-- Settles O22: the three lines are those by which a host presents VEL, ROT and KICK. -/
theorem tickExpandsToThreeLines : Obligations.TickExpandsToThreeLines := by
  unfold Obligations.TickExpandsToThreeLines
  intro s x y th calib command
  exact ⟨_, _, _, decodeOfHostLine (.vel x y th) _ rfl, decodeOfHostLine (.rot calib) _ rfl,
    decodeOfHostLine (.kick command) _ rfl, rfl⟩

/-- Settles O6: each word is evaluated by the decoder. -/
theorem specWordsDecode : Obligations.SpecWordsDecode := ⟨rfl, rfl, rfl, rfl, rfl, rfl, rfl, rfl, rfl, rfl⟩

/-! ### A payload is the encoding of what it decodes to -/

/-- A word is its high part put before its low part. -/
theorem append_of_parts (k n : Nat) (v : BitVec (n + k)) : v.extractLsb' k n ++ v.extractLsb' 0 k = v := by
  rw [BitVec.extractLsb'_append_extractLsb'_eq_extractLsb' (Nat.zero_add k).symm, BitVec.extractLsb'_eq_self]

/-- A byte is its tag put before its low five bits (30_encoding.md R64). -/
theorem byte_of_tag {t : Tag} {b : Byte} (h : b.extractLsb' 5 3 = t) : t ++ b.extractLsb' 0 5 = b := h ▸ append_of_parts 5 3 b

/-- The byte `b3` is put together from `y[2:0]`, the pad bit 0 and `th[11:8]` (30_encoding.md R65). -/
theorem byte_of_pad {b : Byte} (h : b.extractLsb' 4 1 = 0#1) : b.extractLsb' 5 3 ++ 0b0#1 ++ b.extractLsb' 0 4 = b := by
  rw [← h, BitVec.extractLsb'_append_extractLsb'_eq_extractLsb' (start₁ := 4) (len₁ := 1) rfl]
  exact append_of_parts 4 4 b

/-- The encoder undoes the operand assembly of 30_encoding.md R66. -/
theorem encodeVelocity_of_fields {b0 b1 b2 b3 b4 : Byte} (ht : b0.extractLsb' 5 3 = 0#3) (hpad : b3.extractLsb' 4 1 = 0#1) :
    encodeVelocity (b0.extractLsb' 0 5 ++ b1.extractLsb' 1 7) (b1.extractLsb' 0 1 ++ b2 ++ b3.extractLsb' 5 3)
      (b3.extractLsb' 0 4 ++ b4) = [b0, b1, b2, b3, b4] := by
  have hb1 : b1.extractLsb' 1 7 ++ b1.extractLsb' 0 1 = b1 := append_of_parts 1 7 b1
  have hy : (b1.extractLsb' 0 1 ++ b2 ++ b3.extractLsb' 5 3).extractLsb' 11 1 = b1.extractLsb' 0 1 := by
    rw [BitVec.extractLsb'_append_eq_of_le (by decide)]; exact BitVec.extractLsb'_append_eq_left
  have hb2 : (b1.extractLsb' 0 1 ++ b2 ++ b3.extractLsb' 5 3).extractLsb' 3 8 = b2 := by
    rw [BitVec.extractLsb'_append_eq_of_le (by decide)]; exact BitVec.extractLsb'_append_eq_right
  simp only [encodeVelocity, BitVec.extractLsb'_append_eq_left, BitVec.extractLsb'_append_eq_right, byte_of_tag ht, hy, hb1, hb2,
    byte_of_pad hpad]

theorem encodeRotation_of_fields {b0 b1 : Byte} (ht : b0.extractLsb' 5 3 = 1#3) :
    encodeRotation (b0.extractLsb' 0 5 ++ b1) = [b0, b1] := by
  simp only [encodeRotation, BitVec.extractLsb'_append_eq_left, BitVec.extractLsb'_append_eq_right, byte_of_tag ht]

theorem encodeKicker_of_fields {b0 : Byte} (ht : b0.extractLsb' 5 3 = 2#3) : encodeKicker (b0.extractLsb' 0 5) = [b0] := by
  simp only [encodeKicker, byte_of_tag ht]

/-- What decodes as a payload has the tag and the length of its format, and is the encoding of its fields (30_encoding.md R60, R64). -/
theorem encode_of_decodePayload (h : decodePayload p = .ok i) : encode i = .payload p := by
  unfold decodePayload at h
  split at h
  next => cases h
  next b0 rest =>
    split_ifs at h with h0 h1 h2
    · split at h
      next b1 b2 b3 b4 =>
        unfold decodeVelocity at h
        split_ifs at h with hpad
        cases h; exact congrArg Code.payload (encodeVelocity_of_fields h0 hpad)
      next => cases h
    · split at h
      next b1 => cases h; exact congrArg Code.payload (encodeRotation_of_fields h1)
      next => cases h
    · split at h
      next => cases h; exact congrArg Code.payload (encodeKicker_of_fields h2)
      next => cases h

/-- The packer gives the bytes that the layout tables encode, and only those (40_packer.md R91 to R94, 30_encoding.md R61 to R63). -/
theorem pack_eq_ok_iff_encode : pack i = .ok p ↔ encode i = .payload p := by
  cases i with
  | vel x y th => simp only [pack, encode, packVelocity_eq_encode, Except.ok.injEq, Code.payload.injEq]
  | rot calib => simp only [pack, encode, packRotation_eq_encode, Except.ok.injEq, Code.payload.injEq]
  | kick command => simp only [pack, encode, packKicker_eq_encode, Except.ok.injEq, Code.payload.injEq]
  | _ => simp [pack, encode]

/-- Settles O44: the encoder gives the bytes back, and the packer agrees with it. -/
theorem payloadDecodingLosesNothing : Obligations.PayloadDecodingLosesNothing := by
  unfold Obligations.PayloadDecodingLosesNothing
  intro bytes i h
  have he : encode i = .payload bytes := encode_of_decodePayload h
  exact ⟨he, pack_eq_ok_iff_encode.2 he⟩

/-! ### The payload bytes and checksums that collide -/

/-- The payload of a valid command, written out by its layout table. -/
theorem payload_of_pack_vel {x y th : BitVec 12} (h : pack (.vel x y th) = .ok p) : p = encodeVelocity x y th :=
  (Code.payload.inj (pack_eq_ok_iff_encode.1 h)).symm

theorem payload_of_pack_rot {calib : BitVec 13} (h : pack (.rot calib) = .ok p) : p = encodeRotation calib :=
  (Code.payload.inj (pack_eq_ok_iff_encode.1 h)).symm

theorem payload_of_pack_kick {command : BitVec 5} (h : pack (.kick command) = .ok p) : p = encodeKicker command :=
  (Code.payload.inj (pack_eq_ok_iff_encode.1 h)).symm

/-- Both colliding bytes have the tag bits `011`, so no byte with a legal tag collides (30_encoding.md R74). -/
theorem not_collide_of_tag {t : Tag} (ht : t ≠ 3#3) (f : BitVec 5) : collide (t ++ f) = false := by
  revert t f; decide

/-- Both colliding bytes have bit 4 set, so `b3` with its pad bit 0 does not collide (30_encoding.md R74). -/
theorem not_collide_of_pad (a : BitVec 3) (c : BitVec 4) : collide (a ++ 0b0#1 ++ c) = false := by
  revert a c; decide

/-- `b1` of a VelocityVector, from `x[6:0]` and `y[11]` (30_encoding.md R74). -/
theorem collide_append_bit_iff (a : BitVec 7) (c : BitVec 1) :
    collide (a ++ c) = true ↔ (a = 0x3E#7 ∧ c = 1#1) ∨ (a = 0x3F#7 ∧ c = 0#1) := by
  revert a c; decide

/-- The checksum is one byte, so it adds at most one escape (30_encoding.md R69). -/
theorem escapes_le (p : List Byte) : escapes p ≤ p.countP collide + 1 := by
  unfold escapes; split <;> omega

/-- Only `b1`, `b2`, `b4` and the checksum can collide. -/
theorem escapes_encodeVelocity_le (x y th : BitVec 12) : escapes (encodeVelocity x y th) ≤ 4 := by
  have hthree : (encodeVelocity x y th).countP collide ≤ 3 := by
    simp only [encodeVelocity, List.countP_cons, List.countP_nil, not_collide_of_tag (t := 0b000#3) (by decide), not_collide_of_pad,
      Bool.false_eq_true, if_false]
    split_ifs <;> omega
  exact (escapes_le _).trans (Nat.succ_le_succ hthree)

/-- With `b1` colliding, the checksum `0x7D + b0 + (0x5D or 0x5E)` does not (30_encoding.md R74). -/
theorem not_collide_csum_rotation_of_collide (f : BitVec 5) {b1 : Byte} (h : collide b1 = true) :
    collide (csum [0b001#3 ++ f, b1]) = false := by
  rcases (collide_iff b1).1 h with rfl | rfl
  · revert f; decide
  · revert f; decide

/-- With `b1` as it is, the checksum is `0x7D + b0 + b1`, which collides where the two bytes sum to 0 or 1 (30_encoding.md R74). -/
theorem collide_csum_rotation_iff (f : BitVec 5) (b1 : Byte) :
    collide (csum [0b001#3 ++ f, b1]) = true ↔
      ((0b001#3 ++ f : Byte) + b1 = 0x00#8 ∨ (0b001#3 ++ f : Byte) + b1 = 0x01#8) ∧ collide b1 = false := by
  rcases h : collide b1 with _ | _
  · have hsum : csum [0b001#3 ++ f, b1] = Config.header + ((0b001#3 ++ f : Byte) + b1) := by
      simp only [csum, sumFrom_cons, sumFrom_nil, xf_of_not_collide (not_collide_of_tag (t := 0b001#3) (by decide) f),
        xf_of_not_collide h, BitVec.add_assoc]
    have hcollide : ∀ v : Byte, collide (Config.header + v) = true ↔ v = 0x00#8 ∨ v = 0x01#8 := by decide
    rw [hsum, hcollide]; simp
  · simp [not_collide_csum_rotation_of_collide f h]

/-- `b1` and the checksum never collide together. -/
theorem escapes_encodeRotation_le (calib : BitVec 13) : escapes (encodeRotation calib) ≤ 1 := by
  have hb0 : collide (0b001#3 ++ calib.extractLsb' 8 5) = false := not_collide_of_tag (by decide) _
  rcases h : collide (calib.extractLsb' 0 8) with _ | _
  · have hnone : (encodeRotation calib).countP collide = 0 := by simp [encodeRotation, hb0, h]
    exact (escapes_le _).trans (by rw [hnone])
  · simp [encodeRotation, escapes, hb0, h, not_collide_csum_rotation_of_collide _ h]

/-- The checksum `0xBD + command` lies in 0xBD to 0xDC (30_encoding.md R74). -/
theorem not_collide_csum_kicker (command : BitVec 5) : collide (csum [0b010#3 ++ command]) = false := by
  revert command; decide

theorem escapes_encodeKicker_eq_zero (command : BitVec 5) : escapes (encodeKicker command) = 0 := by
  simp [encodeKicker, escapes, not_collide_of_tag (t := 0b010#3), not_collide_csum_kicker]

/-- Settles O47, format by format. -/
theorem whichBytesCollide : Obligations.WhichBytesCollide := by
  unfold Obligations.WhichBytesCollide
  refine ⟨fun x y th p h => ?vel, ⟨_, rfl, by decide⟩, ⟨_, rfl, by decide⟩, fun calib b0 b1 h => ?rot, fun command b0 h => ?kick⟩
  case vel =>
    obtain rfl := payload_of_pack_vel h
    exact ⟨not_collide_of_tag (by decide) _, collide_append_bit_iff _ _, collide_iff _, not_collide_of_pad _ _, collide_iff _,
      escapes_encodeVelocity_le x y th⟩
  case rot =>
    cases payload_of_pack_rot h
    exact ⟨not_collide_of_tag (by decide) _, collide_iff _, collide_csum_rotation_iff _ _, escapes_encodeRotation_le calib⟩
  case kick =>
    cases payload_of_pack_kick h
    exact ⟨not_collide_of_tag (by decide) _, not_collide_csum_kicker command, escapes_encodeKicker_eq_zero command⟩

/-! ### Wire lengths -/

/-- The wire length is the logical length plus one for each escaped pair (30_encoding.md R69). -/
theorem length_frame (p : List Byte) : (frame p).length = p.length + 2 + escapes p := by
  simp only [frame, escapes, List.cons_append, List.length_cons, List.length_append, length_flatMap_stuff, length_stuff]; omega

/-- Settles O48: each format's length and its bound on escapes; a tick is the sum of the three. -/
theorem wireLengthsOfTheFormats : Obligations.WireLengthsOfTheFormats := by
  unfold Obligations.WireLengthsOfTheFormats
  intro x y th calib command p q r hp hq hr
  obtain rfl := payload_of_pack_vel hp
  obtain rfl := payload_of_pack_rot hq
  obtain rfl := payload_of_pack_kick hr
  have hvel : (frame (encodeVelocity x y th)).length = 7 + escapes (encodeVelocity x y th) := length_frame _
  have hrot : (frame (encodeRotation calib)).length = 4 + escapes (encodeRotation calib) := length_frame _
  have hkick : (frame (encodeKicker command)).length = 3 := by rw [length_frame, escapes_encodeKicker_eq_zero]; rfl
  have hfour := escapes_encodeVelocity_le x y th
  have hone := escapes_encodeRotation_le calib
  rw [List.length_append, List.length_append, hvel, hrot, hkick]
  omega

end Sys2Proof.Machine
end

section
/-! PROOFS. The packer (40_packer.md): both columns of its formulas, the accept of each command, the illegal tags, the image of `pack`,
and the reader that gets a command back from its frame. -/

namespace Sys2Proof.Machine

variable {s : State} {i j : Instr} {p : List Byte} {w : CmdWires} {t : Tag}

/-! ### A reader of the frame -/

/-- Behind the header a reader finds the payload and its checksum (30_encoding.md R70). -/
theorem unstuff_tail_frame (p : List Byte) : unstuff (frame p).tail = some (p ++ [csum p]) := by
  have hcsum : unstuff (stuff (csum p)) = some [csum p] := by simpa [unstuff] using unstuff_stuff_cons (csum p) []
  calc unstuff (frame p).tail = unstuff (p.flatMap stuff ++ stuff (csum p)) := rfl
    _ = (unstuff (stuff (csum p))).map (p ++ ·) := unstuff_flatMap_stuff p _
    _ = some (p ++ [csum p]) := by rw [hcsum]; rfl

/-- Of any payload's frame, the reader's answer is what the payload decodes to: the checksum always agrees. -/
theorem readFrame_frame (p : List Byte) : readFrame (frame p) = (decodePayload p).toOption := by
  have hbody : unstuff (p.flatMap stuff ++ stuff (csum p)) = some (p ++ [csum p]) := unstuff_tail_frame p
  simp [readFrame, frame, hbody]

/-- Packing and reading a payload are inverse to each other (40_packer.md R95 (c), 30_encoding.md R66). -/
theorem pack_eq_ok_iff_decodePayload : pack i = .ok p ↔ decodePayload p = .ok i := by
  refine ⟨fun h => ?_, fun h => (payloadDecodingLosesNothing p i h).2⟩
  cases i with
  | vel x y th => obtain rfl := payload_of_pack_vel h; exact decodePayload_encodeVelocity x y th
  | rot calib => obtain rfl := payload_of_pack_rot h; exact decodePayload_encodeRotation calib
  | kick command => obtain rfl := payload_of_pack_kick h; exact decodePayload_encodeKicker command
  | _ => cases h

/-- Settles O37: the reader undoes the stuffing, the checksum agrees, and the payload decodes to the command that was packed. -/
theorem readerRecoversTheCommand : Obligations.ReaderRecoversTheCommand := by
  unfold Obligations.ReaderRecoversTheCommand
  intro i p h
  rw [readFrame_frame, pack_eq_ok_iff_decodePayload.1 h]; rfl

/-! ### The formulas as bit fields -/

/-- A byte that a formula reduces to has the formula's value modulo 256 (40_packer.md R90). -/
theorem toNat_of_trunc8 {v : Nat} {b : Byte} (h : trunc8 v = b) : b.toNat = v % 256 := h ▸ BitVec.toNat_ofNat v 8

/-- A formula that ends in a mask to 8 bits needs no reduction. -/
theorem toNat_of_trunc8_mask {v : Nat} {b : Byte} (h : trunc8 (v &&& 0xFF) = b) : b.toNat = v &&& 0xFF := by
  rw [toNat_of_trunc8 h, Nat.mod_eq_of_lt (Nat.lt_succ_of_le Nat.and_le_right)]

theorem pack_vel (x y th : BitVec 12) : pack (.vel x y th) = .ok (encodeVelocity x y th) := pack_eq_ok_iff_encode.2 rfl

theorem pack_rot (calib : BitVec 13) : pack (.rot calib) = .ok (encodeRotation calib) := pack_eq_ok_iff_encode.2 rfl

theorem pack_kick (command : BitVec 5) : pack (.kick command) = .ok (encodeKicker command) := pack_eq_ok_iff_encode.2 rfl

/-! ### The accept of a command in IDLE -/

/-- A command that packs is recorded and its payload loaded (41_frame_encoder.md R121). -/
theorem exec_of_pack (h : pack i = .ok p) (hp : s.phase = .idle) : exec i s = .next ((s.record i).loadPayload p) := by
  cases i with
  | vel x y th => cases h; exact congrArg Host.Outcome.next (accept_of_idle hp)
  | rot calib => cases h; exact congrArg Host.Outcome.next (accept_of_idle hp)
  | kick command => cases h; exact congrArg Host.Outcome.next (accept_of_idle hp)
  | _ => cases h

/-- A command whose packing raises InvalidDatatype is recorded and the fault is taken (41_frame_encoder.md R121, 60_exceptions.md R174). -/
theorem exec_of_invalidDatatype (h : pack i = .error (.invalidDatatype t)) (hp : s.phase = .idle) :
    exec i s = .next ((s.record i).raise invalidDatatype) := by
  cases i with
  | bad3 => exact congrArg Host.Outcome.next (acceptIllegal_of_idle hp)
  | badHigh g => exact congrArg Host.Outcome.next (acceptIllegal_of_idle hp)
  | _ => cases h

/-- Settles O7: each formula of R91 as the bit field it is equal to, and the accept of what it packs to. -/
theorem velPacksAndIsAccepted : Obligations.VelPacksAndIsAccepted := by
  unfold Obligations.VelPacksAndIsAccepted
  intro x y th
  exact ⟨pack_vel x y th, toNat_of_trunc8 (packVelocity_b0 x), toNat_of_trunc8 (packVelocity_b1 x y),
    toNat_of_trunc8_mask (packVelocity_b2 y), toNat_of_trunc8 (packVelocity_b3 y th), toNat_of_trunc8_mask (pack_low_byte th),
    fun _ hp => exec_of_pack (pack_vel x y th) hp⟩

/-- Settles O8: as for VEL, with the formulas of R92. -/
theorem rotPacksAndIsAccepted : Obligations.RotPacksAndIsAccepted := by
  unfold Obligations.RotPacksAndIsAccepted
  intro calib
  exact ⟨pack_rot calib, toNat_of_trunc8 (packRotation_b0 calib), toNat_of_trunc8_mask (pack_low_byte calib),
    fun _ hp => exec_of_pack (pack_rot calib) hp⟩

/-- Settles O9: as for VEL, with the formula of R93. -/
theorem kickPacksAndIsAccepted : Obligations.KickPacksAndIsAccepted := by
  unfold Obligations.KickPacksAndIsAccepted
  intro command
  exact ⟨pack_kick command, toNat_of_trunc8 (packKicker_b0 command), fun _ hp => exec_of_pack (pack_kick command) hp⟩

/-! ### What `pack` answers over all commands -/

/-- What `pack` can answer, by format (40_packer.md R95 (d)). -/
theorem exists_pack_iff : (∃ i, pack i = .ok p) ↔
    (∃ b0 b1 b2 b3 b4 : Byte, p = [b0, b1, b2, b3, b4] ∧ b0.extractLsb' 5 3 = 0#3 ∧ b3.extractLsb' 4 1 = 0#1) ∨
    (∃ b0 b1 : Byte, p = [b0, b1] ∧ b0.extractLsb' 5 3 = 1#3) ∨
    (∃ b0 : Byte, p = [b0] ∧ b0.extractLsb' 5 3 = 2#3) := by
  constructor
  · rintro ⟨i, h⟩
    cases i with
    | vel x y th => exact .inl ⟨_, _, _, _, _, payload_of_pack_vel h, tag_of_append _ _, velocity_pad y th⟩
    | rot calib => exact .inr (.inl ⟨_, _, payload_of_pack_rot h, tag_of_append _ _⟩)
    | kick command => exact .inr (.inr ⟨_, payload_of_pack_kick h, tag_of_append _ _⟩)
    | _ => cases h
  · rintro (⟨b0, b1, b2, b3, b4, rfl, ht, hpad⟩ | ⟨b0, b1, rfl, ht⟩ | ⟨b0, rfl, ht⟩)
    · exact ⟨_, (pack_vel _ _ _).trans (congrArg Except.ok (encodeVelocity_of_fields ht hpad))⟩
    · exact ⟨_, (pack_rot _).trans (congrArg Except.ok (encodeRotation_of_fields ht))⟩
    · exact ⟨_, (pack_kick _).trans (congrArg Except.ok (encodeKicker_of_fields ht))⟩

/-- Different commands have different payloads (40_packer.md R95 (c)). -/
theorem pack_injective (hi : pack i = .ok p) (hj : pack j = .ok p) : i = j :=
  Except.ok.inj ((pack_eq_ok_iff_decodePayload.1 hi).symm.trans (pack_eq_ok_iff_decodePayload.1 hj))

/-- Settles O46, clause by clause of R95. -/
theorem packIsInjectiveWithThisImage : Obligations.PackIsInjectiveWithThisImage := by
  unfold Obligations.PackIsInjectiveWithThisImage
  refine ⟨fun x y th calib command => ?formats, fun i j p hi hj => ?injective, fun p => exists_pack_iff⟩
  case formats =>
    exact ⟨_, _, _, pack_vel x y th, rfl, tag_of_append _ _, pack_rot calib, rfl, tag_of_append _ _,
      pack_kick command, rfl, tag_of_append _ _⟩
  case injective => exact ⟨pack_injective hi hj, pack_eq_ok_iff_decodePayload.1 hi⟩

/-! ### The illegal tags -/

/-- All five illegal tags raise InvalidDatatype with the tag at the port (40_packer.md R94). -/
theorem pack_decodeCommand_illegal (h : 3#3 ≤ w.dtype) : pack (decodeCommand w) = .error (.invalidDatatype w.dtype) := by
  have high : ∀ d : Tag, 3#3 ≤ d → d ≠ 3#3 → 0b1#1 ++ d.extractLsb' 0 2 = d := by decide
  rw [decodeCommand_illegal h]
  split
  next h3 => rw [h3]; rfl
  next h3 => exact congrArg (Except.error ∘ PackError.invalidDatatype) (high _ h h3)

/-- Settles O10: what packs to InvalidDatatype takes the fault, and for an illegal tag at the port that does not depend on the operands. -/
theorem badTagsTakeInvalidDatatype : Obligations.BadTagsTakeInvalidDatatype := by
  unfold Obligations.BadTagsTakeInvalidDatatype
  refine ⟨fun _ hp => exec_of_invalidDatatype rfl hp, fun _ g hp => exec_of_invalidDatatype rfl hp, fun w hw => ?_⟩
  have hpack := pack_decodeCommand_illegal hw
  obtain ⟨-, -, -, hignored⟩ := unusedOperandPortsAreIgnored w (CmdWires.ofTag w.dtype) rfl
  exact ⟨hpack, hignored hw, fun _ hp => exec_of_invalidDatatype hpack hp⟩

end Sys2Proof.Machine
end

section
/-! PROOFS. The frame function (41_frame_encoder.md R111 to R116): the transform, the checksum, and that a frame is delimited
and read back. -/

namespace Sys2Proof.Machine

variable {b c : Byte} {p q : List Byte}

/-! ### The transform -/

theorem xf_of_collide (h : collide b = true) : xf b = b ^^^ Config.escapeMask := if_pos h

/-- Stuffing one byte can be undone (41_frame_encoder.md R111). -/
theorem stuff_injective (h : stuff b = stuff c) : b = c := by
  have undone (d : Byte) : unstuff (stuff d) = some [d] := by simpa [unstuff] using unstuff_stuff_cons d []
  have hbc := undone b
  rw [h, undone c] at hbc
  exact (List.singleton_inj.1 (Option.some.inj hbc)).symm

/-- Settles O34, by what `xf` yields for the two bytes that collide and for the others. -/
theorem transformAndStuffing : Obligations.TransformAndStuffing := by
  unfold Obligations.TransformAndStuffing
  refine ⟨collide_iff, fun b h => ⟨xf_of_collide h, stuff_of_collide h⟩, fun b h => ⟨xf_of_not_collide h, stuff_of_not_collide h⟩,
    collide_xf, fun b hne => ?_, by decide, fun b c => stuff_injective⟩
  rcases xf_cases b with ⟨-, e⟩ | ⟨-, e⟩ | ⟨-, e⟩
  · exact absurd e hne
  · exact .inl e
  · exact .inr e

/-! ### The frame function -/

/-- From any seed, the wrapping sum is the sum of the values, reduced once at the end. -/
theorem toNat_sumFrom (a : Byte) (p : List Byte) :
    (sumFrom a p).toNat = (a.toNat + (p.map fun b => (xf b).toNat).sum) % 256 := by
  induction p generalizing a with
  | nil => exact (Nat.mod_eq_of_lt a.isLt).symm
  | cons b p ih =>
    rw [sumFrom_cons, ih, BitVec.toNat_add, List.map_cons, List.sum_cons, ← Nat.add_assoc]
    exact Nat.mod_add_mod _ _ _

/-- Settles O35: the sum over the header's value. -/
theorem checksumIsTheSumModulo256 : Obligations.ChecksumIsTheSumModulo256 :=
  ⟨toNat_sumFrom Config.header, csum_nil⟩

/-- Behind its header a frame is the stuffing of the payload and its checksum (41_frame_encoder.md R113). -/
theorem frame_eq_cons_flatMap (p : List Byte) : frame p = Config.header :: (p ++ [csum p]).flatMap stuff := by
  simp [frame]

theorem header_not_mem_flatMap_stuff (l : List Byte) : Config.header ∉ l.flatMap stuff := by
  intro h
  obtain ⟨b, -, hb⟩ := List.mem_flatMap.1 h
  exact header_not_mem_stuff b hb

/-- Each escape byte is followed by one of the two transformed values. -/
def EscapesPaired (l : List Byte) : Prop :=
  ∀ k : Nat, l[k]? = some 0x7E#8 → l[k + 1]? = some 0x5D#8 ∨ l[k + 1]? = some 0x5E#8

theorem EscapesPaired.cons (h : EscapesPaired p) (hb : b ≠ 0x7E#8) : EscapesPaired (b :: p) := by
  intro k hk
  cases k with
  | zero => exact absurd (Option.some.inj hk) hb
  | succ k => exact h k hk

theorem EscapesPaired.escape_cons (h : EscapesPaired p) (hv : p[0]? = some 0x5D#8 ∨ p[0]? = some 0x5E#8) :
    EscapesPaired (b :: p) := by
  intro k hk
  cases k with
  | zero => exact hv
  | succ k => exact h k hk

/-- A stuffed byte is a literal that is no escape byte, or an escaped pair. -/
theorem EscapesPaired.stuff_append (h : EscapesPaired p) (b : Byte) : EscapesPaired (stuff b ++ p) := by
  rcases xf_cases b with ⟨hc, -⟩ | ⟨rfl, -⟩ | ⟨rfl, -⟩
  · rw [stuff_of_not_collide hc]
    exact h.cons fun e => by rw [e] at hc; exact absurd hc (by decide)
  · exact (h.cons (b := 0x5D#8) (by decide)).escape_cons (.inl rfl)
  · exact (h.cons (b := 0x5E#8) (by decide)).escape_cons (.inr rfl)

theorem escapesPaired_flatMap_stuff (l : List Byte) : EscapesPaired (l.flatMap stuff) := by
  induction l with
  | nil => intro k hk; cases hk
  | cons b l ih => exact ih.stuff_append b

theorem escapesPaired_frame (p : List Byte) : EscapesPaired (frame p) := by
  rw [frame_eq_cons_flatMap]
  exact (escapesPaired_flatMap_stuff _).cons (by decide)

/-- The frame determines the payload (41_frame_encoder.md R116 (d)). -/
theorem frame_injective (h : frame p = frame q) : p = q := by
  have hp := unstuff_tail_frame p
  rw [h, unstuff_tail_frame q] at hp
  exact (List.append_inj_left' (Option.some.inj hp) rfl).symm

/-- Settles O36, clause by clause of R116. -/
theorem frameIsDelimitedAndReadable : Obligations.FrameIsDelimitedAndReadable := by
  unfold Obligations.FrameIsDelimitedAndReadable
  intro p
  have hlen := length_frame p
  have hesc : escapes p ≤ p.length + 1 := (escapes_le p).trans (Nat.succ_le_succ List.countP_le_length)
  refine ⟨hlen, by omega, by omega, rfl, ?_, escapesPaired_frame p, unstuff_tail_frame p, fun q => frame_injective⟩
  rw [frame_eq_cons_flatMap]
  exact header_not_mem_flatMap_stuff _

end Sys2Proof.Machine
end

section
/-! PROOFS. The encoder's steps (41_frame_encoder.md R118 to R127): that a step is the decoded instruction's, what each writes and leaves,
and the cycle of the phases. -/

namespace Sys2Proof.Machine

variable {s t done : State} {i : Instr} {b : Byte} {p : List Byte} {w : CmdWires}

/-! ### A step runs the decoded instruction -/

/-- Inside a frame, at a ready transport, a step is the symbol due (41_frame_encoder.md R120). -/
theorem step_of_due (ho : s.ordinaryEdge) (hf : s.inFrame) (hr : s.levels.txReady = true) (hd : s.due = some i) :
    step s = afterEdge (exec i s) := by
  rw [step_of_ordinaryEdge ho]
  rcases hf with hp | hp | hp <;> simp [State.fetch, hp, hr, hd, takeLine_of_not_idle (s := s)]

/-- The symbol due is the offered byte, read at its place (30_encoding.md R77). -/
theorem due_eq_some_iff : s.due = some i ↔ ∃ b, s.wireByte = some b ∧ decodeSymbol s.wirePos b = .ok i := by
  unfold State.due
  rcases s.wireByte with _ | b
  · simp
  · rcases hs : decodeSymbol s.wirePos b <;> simp [hs, Except.toOption]

/-- In IDLE a TICK line is run without an edge (log entry 12). -/
theorem step_tick {x y th : BitVec 12} {calib : BitVec 13} {command : BitVec 5} {lines : List Line} (hl : s.live = true)
    (hp : s.phase = .idle) (hg : s.program = .tick x y th calib command :: lines) :
    step s = exec (.tick x y th calib command) { s with program := lines } := by
  simp [step, hl, hostTurn_tick hp hg, takeLine_of_idle hp, hg]

/-- No wires at the command port are TICK: it has no encoding (30_encoding.md R76). -/
theorem decodeCommand_ne_tick (w : CmdWires) (x y th : BitVec 12) (calib : BitVec 13) (command : BitVec 5) :
    decodeCommand w ≠ .tick x y th calib command := by
  unfold decodeCommand
  split_ifs <;> simp

/-- Settles O5: the three ways a step comes to run an instruction. -/
theorem stepRunsDecodedInstruction : Obligations.StepRunsDecodedInstruction := by
  unfold Obligations.StepRunsDecodedInstruction
  refine ⟨fun s i ho hp hv hd => ?command, fun s b i ho hp hr hb hd => ?symbol, fun s l lines x y th calib command hl hp hg hd => ?tick⟩
  case command =>
    have hi : decodeCommand s.levels.cmd = i := Except.ok.inj hd
    rw [step_idle ho hp, if_pos hv, hi]
  case symbol => exact step_of_due ho hp hr (due_eq_some_iff.2 ⟨b, hb, hd⟩)
  case tick =>
    cases l with
    | command w => exact absurd (Except.ok.inj hd) (decodeCommand_ne_tick w x y th calib command)
    | tick => cases hd; exact step_tick hl hp hg

/-- Settles O19: the three cases are those of HOLD in the inversion of a step. -/
theorem holdChangesNoElement : Obligations.HoldChangesNoElement := by
  unfold Obligations.HoldChangesNoElement
  intro s ho still
  refine step_of_stepTo (.hold ho ?_)
  rcases still with hidle | ⟨hf, hr⟩ | hfault
  · exact .inl hidle
  · exact .inr (.inr ⟨(txValid_iff s).2 hf, hr⟩)
  · exact .inr (.inl hfault)

/-! ### The commands -/

/-- Outside IDLE a command changes nothing (60_exceptions.md R177, log entry 10). -/
theorem exec_command_of_not_idle (hc : pack i ≠ .error .noCommand) (hp : s.phase ≠ .idle) : exec i s = .next s := by
  cases i with
  | vel x y th => exact congrArg Host.Outcome.next (accept_of_not_idle hp)
  | rot calib => exact congrArg Host.Outcome.next (accept_of_not_idle hp)
  | kick command => exact congrArg Host.Outcome.next (accept_of_not_idle hp)
  | bad3 => exact congrArg Host.Outcome.next (acceptIllegal_of_not_idle hp)
  | badHigh g => exact congrArg Host.Outcome.next (acceptIllegal_of_not_idle hp)
  | _ => exact absurd rfl hc

/-- Everything the meaning of a valid command can do (41_frame_encoder.md R121). -/
theorem exec_cases_of_pack (hk : pack i = .ok p) (h : exec i s = .next t) : t = s ∨ t = (s.record i).loadPayload p := by
  by_cases hp : s.phase = .idle
  · rw [exec_of_pack hk hp] at h; cases h; exact .inr rfl
  · rw [exec_command_of_not_idle (by simp [hk]) hp] at h; cases h; exact .inl rfl

/-- Everything the meaning of an illegal command can do (60_exceptions.md R174). -/
theorem exec_cases_of_invalidDatatype {tag : Tag} (hk : pack i = .error (.invalidDatatype tag)) (h : exec i s = .next t) :
    t = s ∨ t = (s.record i).raise invalidDatatype := by
  by_cases hp : s.phase = .idle
  · rw [exec_of_invalidDatatype hk hp] at h; cases h; exact .inr rfl
  · rw [exec_command_of_not_idle (by simp [hk]) hp] at h; cases h; exact .inl rfl

/-- The wires at the command port are a valid command or an illegal tag (40_packer.md R90, R94). -/
theorem pack_decodeCommand_cases (w : CmdWires) :
    (∃ p, pack (decodeCommand w) = .ok p) ∨ pack (decodeCommand w) = .error (.invalidDatatype w.dtype) := by
  have tags : ∀ d : Tag, (d = 0#3 ∨ d = 1#3 ∨ d = 2#3) ∨ 3#3 ≤ d := by decide
  exact (tags w.dtype).imp pack_of_hostMayOffer pack_decodeCommand_illegal

theorem exists_pack_of_validCommand (h : validCommand i = true) : ∃ p, pack i = .ok p := by
  cases i with
  | vel x y th => exact ⟨_, rfl⟩
  | rot calib => exact ⟨_, rfl⟩
  | kick command => exact ⟨_, rfl⟩
  | _ => cases h

/-- Settles O14, by what a valid and what an illegal command can do. -/
theorem commandFrame : Obligations.CommandFrame := by
  unfold Obligations.CommandFrame
  refine ⟨?any, fun s t i hv h => ?valid, fun s t i hi h => ?illegal⟩
  case any =>
    rintro s t i ⟨w, rfl⟩ h
    rcases pack_decodeCommand_cases w with ⟨p, hk⟩ | hk
    · rcases exec_cases_of_pack hk h with rfl | rfl <;> simp
    · rcases exec_cases_of_invalidDatatype hk h with rfl | rfl <;> simp
  case valid =>
    obtain ⟨p, hk⟩ := exists_pack_of_validCommand hv
    rcases exec_cases_of_pack hk h with rfl | rfl <;> rfl
  case illegal =>
    obtain ⟨tag, hk⟩ : ∃ tag, pack i = .error (.invalidDatatype tag) := by
      rcases hi with rfl | ⟨g, rfl⟩ <;> exact ⟨_, rfl⟩
    rcases exec_cases_of_invalidDatatype hk h with rfl | rfl <;> simp

/-- The buffer holds the payload's bytes and 0x00 above (41_frame_encoder.md R121). -/
theorem PayloadBuffer.get_load (p : List Byte) {k : BitVec 3} (hk : k < 5) : (PayloadBuffer.load p).get k = some (p.getD k.toNat 0) := by
  have hlt : k.toNat < 5 := hk
  unfold PayloadBuffer.get
  generalize k.toNat = n at hlt
  interval_cases n <;> rfl

/-- The payload length by the tag (00_scope.md R6). -/
theorem length_of_pack_decodeCommand (hk : pack (decodeCommand w) = .ok p) :
    (w.dtype = 0#3 → p.length = 5) ∧ (w.dtype = 1#3 → p.length = 2) ∧ (w.dtype = 2#3 → p.length = 1) := by
  refine ⟨fun h => ?_, fun h => ?_, fun h => ?_⟩
  · rw [decodeCommand_vel h] at hk; cases hk; rfl
  · rw [decodeCommand_rot h] at hk; cases hk; rfl
  · rw [decodeCommand_kick h] at hk; cases hk; rfl

/-- Settles O11: the two ACCEPT cases of the inversion of a step. -/
theorem acceptLoadsTheCommandAtThePort : Obligations.AcceptLoadsTheCommandAtThePort := by
  unfold Obligations.AcceptLoadsTheCommandAtThePort
  intro s ho hp hv
  refine ⟨fun hlegal => ?legal, fun hbad => step_of_stepTo (.illegal ho hp hv (pack_decodeCommand_illegal hbad))⟩
  case legal =>
    obtain ⟨p, hk⟩ := pack_of_hostMayOffer hlegal
    obtain ⟨hvel, hrot, hkick⟩ := length_of_pack_decodeCommand hk
    have hlen := length_le_of_pack hk
    refine ⟨p, _, hk, step_of_stepTo (.accept ho hp hv hk), fun h => ?_, fun h => ?_, fun h => ?_, ?_,
      fun k hk => PayloadBuffer.get_load p hk, rfl, rfl, rfl, rfl, rfl, rfl, rfl, rfl, rfl⟩
    · simp [hvel h]
    · simp [hrot h]
    · simp [hkick h]
    · simp only [State.advance_plen, State.loadPayload_plen, BitVec.toNat_ofNat]; omega

/-! ### The writing steps -/

theorem ne_hdr_of_currentByte (hb : s.currentByte = some b) : s.phase ≠ .hdr := by
  intro hp
  simp [State.currentByte, hp] at hb

theorem exec_hdr_of_success (hp : s.phase = .hdr) (hw : s.writeSucceeds) :
    exec .hdr s = .next (s.headerWrites.deliver Config.header) := by
  rw [exec_due_hdr hp hw.1, txWrite_of_success hw.2]

theorem step_hdr_of_success (ho : s.ordinaryEdge) (hp : s.phase = .hdr) (hw : s.writeSucceeds) :
    step s = .next (s.headerWrites.deliver Config.header).advance := by
  rw [step_hdr ho hp, if_pos hw.1, txWrite_of_success hw.2]

/-- The phase after the header, as R122 words it. -/
theorem headerWrites_eq (s : State) :
    s.headerWrites = { s with acc := 0x7D#8, phase := if s.plen ≠ 0 then .pay else .csum } := by
  rw [ite_not]; rfl

/-- Settles O15: the header symbol is due and its write succeeds. -/
theorem hdrWritesHeaderAndSeeds : Obligations.HdrWritesHeaderAndSeeds := by
  unfold Obligations.HdrWritesHeaderAndSeeds
  refine ⟨fun s hp hw => ?_, fun s ho hp hw => ?_⟩
  · rw [exec_hdr_of_success hp hw, headerWrites_eq]; rfl
  · rw [step_hdr_of_success ho hp hw, headerWrites_eq]; rfl

/-- The escape byte is due: the escape symbol writes it and sets `esc` (41_frame_encoder.md R123, R125). -/
theorem exec_esc_of_success (hb : s.currentByte = some b) (he : escapeFirst b s.esc = true) (hw : s.writeSucceeds) :
    exec .esc s = .next (s.escapeWrites.deliver Config.escape) := by
  have hd : s.due = some .esc := by rw [due_of_currentByte (ne_hdr_of_currentByte hb) hb, if_pos he]
  rw [exec_due_currentByte (ne_hdr_of_currentByte hb) hb hw.1 hd, if_pos he, txWrite_of_success hw.2]

theorem step_esc_of_success (ho : s.ordinaryEdge) (hb : s.currentByte = some b) (he : escapeFirst b s.esc = true)
    (hw : s.writeSucceeds) : step s = .next (s.escapeWrites.deliver Config.escape).advance := by
  rw [step_currentByte ho hb, if_pos hw.1, if_pos he, txWrite_of_success hw.2]

theorem escapeFirst_of_collide {esc : Bool} (hc : collide b = true) (he : esc = false) : escapeFirst b esc = true := by
  simp [escapeFirst, hc, he]

/-- Settles O16: in both phases the escape byte of the current byte is due. -/
theorem escWritesEscapeOnly : Obligations.EscWritesEscapeOnly := by
  unfold Obligations.EscWritesEscapeOnly
  refine ⟨fun s b hp hb hc he hw => ?_, fun s hp hc he hw => ?_, fun s b ho hplace hc he hw => ?_⟩
  · exact exec_esc_of_success ((currentByte_of_pay hp).trans hb) (escapeFirst_of_collide hc he) hw
  · exact exec_esc_of_success (currentByte_of_csum hp) (escapeFirst_of_collide hc he) hw
  · have hb : s.currentByte = some b := by
      rcases hplace with ⟨hp, hb⟩ | ⟨hp, rfl⟩
      · exact (currentByte_of_pay hp).trans hb
      · exact currentByte_of_csum hp
    exact step_esc_of_success ho hb (escapeFirst_of_collide hc he) hw

/-- The transmitted value is due, as the symbol `i`. -/
theorem exec_value_of_success (hb : s.currentByte = some b) (he : escapeFirst b s.esc = false) (hd : s.due = some i)
    (hw : s.writeSucceeds) : exec i s = .next ((s.valueWrites (xf b)).deliver (xf b)) := by
  rw [exec_due_currentByte (ne_hdr_of_currentByte hb) hb hw.1 hd, he, if_neg (by simp), txWrite_of_success hw.2]

theorem step_value_of_success (ho : s.ordinaryEdge) (hb : s.currentByte = some b) (hv : collide b = false ∨ s.esc = true)
    (hw : s.writeSucceeds) : step s = .next ((s.valueWrites (xf b)).deliver (xf b)).advance := by
  have he : escapeFirst b s.esc = false := by rcases hv with h | h <;> simp [escapeFirst, h]
  rw [step_currentByte ho hb, if_pos hw.1, he, if_neg (by simp), txWrite_of_success hw.2]

/-- A literal is due before its byte, and after an escape byte where the byte has not XVAL's pattern (log entry 11). -/
theorem exec_lit_of_success (hb : s.currentByte = some b)
    (hv : (s.esc = false ∧ collide b = false) ∨ (s.esc = true ∧ (xf b).extractLsb' 2 6 ≠ 0b010111#6)) (hw : s.writeSucceeds) :
    exec (.lit (xf b)) s = .next ((s.valueWrites (xf b)).deliver (xf b)) := by
  have hd := due_of_currentByte (ne_hdr_of_currentByte hb) hb
  rcases hv with ⟨he, hc⟩ | ⟨he, hx⟩
  · exact exec_value_of_success hb (by simp [escapeFirst, hc]) (by rw [hd]; simp [escapeFirst, hc, he]) hw
  · exact exec_value_of_success hb (by simp [escapeFirst, he]) (by rw [hd]; simp [escapeFirst, he, hx]) hw

/-- A byte of XVAL's pattern after an escape byte is XVAL. -/
theorem exec_xval_of_success {v : BitVec 2} (hb : s.currentByte = some b) (he : s.esc = true) (hx : xf b = 0b010111#6 ++ v)
    (hw : s.writeSucceeds) : exec (.xval v) s = .next ((s.valueWrites (xf b)).deliver (xf b)) := by
  have hhigh : (xf b).extractLsb' 2 6 = 0b010111#6 := by rw [hx]; exact BitVec.extractLsb'_append_eq_left
  have hlow : (xf b).extractLsb' 0 2 = v := by rw [hx]; exact BitVec.extractLsb'_append_eq_right
  refine exec_value_of_success hb (by simp [escapeFirst, he]) ?_ hw
  rw [due_of_currentByte (ne_hdr_of_currentByte hb) hb]
  simp [escapeFirst, he, hhigh, hlow]

/-- Settles O17: the value's write, with the writes of PAYB-VAL. -/
theorem payloadValueIsWrittenAndSummed : Obligations.PayloadValueIsWrittenAndSummed := by
  unfold Obligations.PayloadValueIsWrittenAndSummed
  refine ⟨fun s b hp hb hv hw => ?lit, fun s b v hp hb he hx hw => ?xval, fun s b ho hp hb hv hw => ?step⟩
  case lit => rw [exec_lit_of_success ((currentByte_of_pay hp).trans hb) hv hw, valueWrites_of_pay hp]; rfl
  case xval => rw [exec_xval_of_success ((currentByte_of_pay hp).trans hb) he hx hw, valueWrites_of_pay hp]; rfl
  case step => rw [step_value_of_success ho ((currentByte_of_pay hp).trans hb) hv hw, valueWrites_of_pay hp]; rfl

/-- Settles O18: the value's write, with the writes of CSB-VAL. -/
theorem checksumValueEndsTheFrame : Obligations.ChecksumValueEndsTheFrame := by
  unfold Obligations.ChecksumValueEndsTheFrame
  refine ⟨fun s hp hv hw => ?lit, fun s v hp he hx hw => ?xval, fun s ho hp hv hw => ⟨_, ?step, rfl, rfl⟩⟩
  case lit => rw [exec_lit_of_success (currentByte_of_csum hp) hv hw, valueWrites_of_csum hp]; rfl
  case xval => rw [exec_xval_of_success (currentByte_of_csum hp) he hx hw, valueWrites_of_csum hp]; rfl
  case step => rw [step_value_of_success ho (currentByte_of_csum hp) hv hw, valueWrites_of_csum hp]; rfl

/-! ### The frame of the symbols -/

/-- The own writes of the step whose symbol is `i` (41_frame_encoder.md R122 to R126). -/
def State.symbolWrites (s : State) : Instr → State
  | .hdr => s.headerWrites
  | .esc => s.escapeWrites
  | .xval v => s.valueWrites (xvalByte v)
  | .lit b => s.valueWrites b
  | _ => s

/-- The meaning of a symbol is the write of the byte it is encoded as. -/
theorem exec_of_encode_symbol {pos : WirePos} (h : encode i = .symbol pos b) :
    exec i s = .next (s.writeSymbol i b (s.symbolWrites i)) := by
  cases i with
  | hdr => cases h; rfl
  | esc => cases h; rfl
  | xval v => cases h; rfl
  | lit b => cases h; rfl
  | _ => cases h

/-- A byte is the encoding of the symbol it is read as (30_encoding.md R68). -/
theorem encode_of_decodeSymbol {pos : WirePos} (h : decodeSymbol pos b = .ok i) : ∃ pos', encode i = .symbol pos' b := by
  cases pos with
  | frameStart =>
    simp only [decodeSymbol] at h
    split_ifs at h with hh
    cases h; exact ⟨_, by rw [hh]; rfl⟩
  | inFrame =>
    simp only [decodeSymbol] at h
    split_ifs at h with hh he
    · cases h; exact ⟨_, by rw [he]; rfl⟩
    · cases h; exact ⟨_, rfl⟩
  | afterEscape =>
    simp only [decodeSymbol] at h
    split_ifs at h with hh he hx
    · cases h; exact ⟨_, congrArg (Code.symbol .afterEscape) (xvalByte_of_pattern hx)⟩
    · cases h; exact ⟨_, rfl⟩

/-- The byte of the symbol due is the byte offered. -/
theorem wireByte_of_due {pos : WirePos} (hd : s.due = some i) (hi : encode i = .symbol pos b) : s.wireByte = some b := by
  obtain ⟨c, hc, hs⟩ := due_eq_some_iff.1 hd
  obtain ⟨pos', hi'⟩ := encode_of_decodeSymbol hs
  rw [hi] at hi'; cases hi'; exact hc

/-- The two states differ in the sequencer's registers `phase`, `idx`, `esc` and `acc` at most. -/
structure SequencerOnly (s done : State) : Prop where
  pb : done.pb = s.pb
  plen : done.plen = s.plen
  fcode : done.fcode = s.fcode
  wire : done.wire = s.wire
  accepted : done.accepted = s.accepted
  pins : done.pins = s.pins
  program : done.program = s.program
  sched : done.sched = s.sched
  edge : done.edge = s.edge
  live : done.live = s.live

theorem sequencerOnly_valueWrites (s : State) (b : Byte) : SequencerOnly s (s.valueWrites b) := by
  unfold State.valueWrites
  split <;> exact ⟨rfl, rfl, rfl, rfl, rfl, rfl, rfl, rfl, rfl, rfl⟩

theorem sequencerOnly_symbolWrites (s : State) (i : Instr) : SequencerOnly s (s.symbolWrites i) := by
  cases i with
  | xval v => exact sequencerOnly_valueWrites s _
  | lit b => exact sequencerOnly_valueWrites s b
  | _ => exact ⟨rfl, rfl, rfl, rfl, rfl, rfl, rfl, rfl, rfl, rfl⟩

/-- In CSUM the symbol due is no header, and its step leaves `acc` and `idx` (41_frame_encoder.md R125, R126). -/
theorem symbolWrites_of_csum (hd : s.due = some i) (hp : s.phase = .csum) :
    (s.symbolWrites i).acc = s.acc ∧ (s.symbolWrites i).idx = s.idx := by
  cases i with
  | hdr =>
    rw [due_of_currentByte (by simp [hp]) (currentByte_of_csum hp)] at hd
    split_ifs at hd <;> cases hd
  | xval v => rw [State.symbolWrites, valueWrites_of_csum hp]; exact ⟨rfl, rfl⟩
  | lit b => rw [State.symbolWrites, valueWrites_of_csum hp]; exact ⟨rfl, rfl⟩
  | _ => exact ⟨rfl, rfl⟩

/-- Everything the meaning of a symbol can do: nothing, its step's own writes with its byte on the wire, or the fault entry. -/
theorem exec_symbol_cases {pos : WirePos} (hi : encode i = .symbol pos b) (h : exec i s = .next t) :
    t = s ∨ (s.due = some i ∧ t = (s.symbolWrites i).deliver b) ∨
    (s.due = some i ∧ s.levels.txErr = true ∧
      (t = s.raise transportWriteError ∨ t = (s.raise transportWriteError).deliver b)) := by
  rw [exec_of_encode_symbol hi] at h
  cases h
  rcases writeSymbol_cases s i b (s.symbolWrites i) with ⟨hd, -, e⟩ | ⟨-, e⟩
  · rw [e]
    rcases txWrite_cases s (s.symbolWrites i) b with ⟨-, e⟩ | ⟨he, e⟩
    · exact .inr (.inl ⟨hd, e⟩)
    · exact .inr (.inr ⟨hd, he, e⟩)
  · exact .inl e

/-- Settles O21, by what the meaning of a symbol can do. -/
theorem symbolFrame : Obligations.SymbolFrame := by
  unfold Obligations.SymbolFrame
  intro s t i hi h
  obtain ⟨pos, b, hi⟩ : ∃ pos b, encode i = .symbol pos b := by
    rcases hi with rfl | rfl | ⟨v, rfl⟩ | ⟨b, rfl⟩ <;> exact ⟨_, _, rfl⟩
  rcases exec_symbol_cases hi h with rfl | ⟨hd, rfl⟩ | ⟨hd, he, rfl | rfl⟩
  · simp
  · have hb := wireByte_of_due hd hi
    have hs := sequencerOnly_symbolWrites s i
    refine ⟨hs.pb, hs.plen, hs.accepted, hs.pins, hs.program, hs.sched, hs.edge, hs.live, .inr ⟨b, hb, ?_⟩, fun _ => hs.fcode,
      ?_, ?_, symbolWrites_of_csum hd⟩
    · rw [State.deliver_wire, hs.wire]
    · rintro rfl; exact ⟨rfl, rfl⟩
    · rintro rfl; exact ⟨rfl, rfl⟩
  · simp [he]
  · simp [he, wireByte_of_due hd hi]

/-! ### The machine's steps -/

theorem txWrite_advance_live (hd : done.live = true) (hl : s.live = true) : (s.txWrite done b).advance.live = true := by
  obtain ⟨-, e⟩ | ⟨-, e | e⟩ := txWrite_cases s done b <;> simp [e, hd, hl]

theorem StepTo.live (h : StepTo s t) (hl : s.live = true) : t.live = true := by
  cases h with
  | reset => rfl
  | tick => exact hl
  | sched _ hm => rw [schedulerMove_block hm]; exact hl
  | hold => exact hl
  | accept => exact hl
  | illegal => exact hl
  | hdr => exact txWrite_advance_live hl hl
  | esc => exact txWrite_advance_live hl hl
  | payValue => exact txWrite_advance_live hl hl
  | csumValue => exact txWrite_advance_live hl hl

/-- Settles O27: of the cases of a step, the missing register is shut out by R35 (b), the step before the first reset by `live`. -/
theorem invariantStatesAlwaysStep : Obligations.InvariantStatesAlwaysStep := by
  unfold Obligations.InvariantStatesAlwaysStep
  intro s hi hl
  rcases step_all_cases s with ⟨t, ht, hc⟩ | ⟨-, hp, hnone, -⟩ | ⟨hdead, -⟩
  · exact ⟨t, ht, hc.live hl⟩
  · obtain ⟨b, hb, -⟩ := (framing_of_inv hi (.inr (.inl hp))).current hp
    rw [hb] at hnone; cases hnone
  · rw [hl] at hdead; cases hdead

/-- The phase after a write: that of the step's own writes, or FAULT with code 2. -/
theorem txWrite_advance_phase (s done : State) (b : Byte) :
    (s.txWrite done b).advance.phase = done.phase ∨
      ((s.txWrite done b).advance.phase = .fault ∧ (s.txWrite done b).advance.fcode = 2) := by
  obtain ⟨-, e⟩ | ⟨-, e | e⟩ := txWrite_cases s done b
  · exact .inl (by rw [e]; rfl)
  · exact .inr (by rw [e]; exact ⟨rfl, rfl⟩)
  · exact .inr (by rw [e]; exact ⟨rfl, rfl⟩)

/-- Settles O28, by the inversion of a step. -/
theorem phasesFollowTheCycle : Obligations.PhasesFollowTheCycle := by
  unfold Obligations.PhasesFollowTheCycle
  intro s t ho h hne
  cases step_next_cases h with
  | reset _ later =>
    obtain ⟨-, hr⟩ := later ho.1
    rw [ho.2.2] at hr; cases hr
  | tick => exact absurd rfl hne
  | sched _ hm => rw [schedulerMove_block hm] at hne; exact absurd rfl hne
  | hold => exact absurd rfl hne
  | accept _ hp hv => exact .inl ⟨hp, rfl, hv⟩
  | illegal _ hp => exact .inr (.inl ⟨hp, rfl, rfl⟩)
  | hdr _ hp =>
    rcases txWrite_advance_phase s s.headerWrites Config.header with e | e
    · by_cases hz : s.plen = 0
      · exact .inr (.inr (.inr (.inl ⟨hp, e.trans (if_pos hz), hz⟩)))
      · exact .inr (.inr (.inl ⟨hp, e.trans (if_neg hz), hz⟩))
    · exact .inr (.inr (.inr (.inr (.inr (.inr ⟨(txValid_iff s).2 (.inl hp), e⟩)))))
  | esc _ hp =>
    rcases txWrite_advance_phase s s.escapeWrites Config.escape with e | e
    · exact absurd e hne
    · exact .inr (.inr (.inr (.inr (.inr (.inr ⟨(txValid_iff s).2 (.inr hp), e⟩)))))
  | @payValue b _ hp =>
    rcases txWrite_advance_phase s (s.payloadWrites (xf b)) (xf b) with e | e
    · by_cases hz : s.idx + 1 = s.plen
      · exact .inr (.inr (.inr (.inr (.inl ⟨hp, e.trans (if_pos hz), hz⟩))))
      · exact absurd (e.trans ((if_neg hz).trans hp.symm)) hne
    · exact .inr (.inr (.inr (.inr (.inr (.inr ⟨(txValid_iff s).2 (.inr (.inl hp)), e⟩)))))
  | csumValue _ hp =>
    rcases txWrite_advance_phase s s.checksumWrites (xf s.acc) with e | e
    · exact .inr (.inr (.inr (.inr (.inr (.inl ⟨hp, e⟩)))))
    · exact .inr (.inr (.inr (.inr (.inr (.inr ⟨(txValid_iff s).2 (.inr (.inr hp)), e⟩)))))

end Sys2Proof.Machine
end

section
/-! PROOFS. A payload is written as exactly its frame, under any backpressure (41_frame_encoder.md R113, R128). -/

namespace Sys2Proof.Machine

variable {s t u : State} {b : Byte} {p : List Byte} {qs rest : List Pins}

/-- A run of `n` edges inside a frame, at which the first bytes `bs` of those still to be written have joined the wire stream, with the
payload still in the buffer. -/
structure FrameRun (s : State) (n : Nat) (bs : List Byte) (t : State) : Prop extends Progress s n bs [] t where
  left : s.remaining = bs ++ t.remaining
  idxEnd : IdxAtEnd s → IdxAtEnd t
  pb : t.pb = s.pb
  plen : t.plen = s.plen

theorem FrameRun.refl (s : State) : FrameRun s 0 [] s := ⟨.refl s, rfl, id, rfl, rfl⟩

theorem FrameRun.trans {m n : Nat} {bs bs' : List Byte} (h : FrameRun s m bs t) (h' : FrameRun t n bs' u) :
    FrameRun s (m + n) (bs ++ bs') u where
  toProgress := h.toProgress.trans h'.toProgress
  left := by rw [h.left, h'.left, List.append_assoc]
  idxEnd := h'.idxEnd ∘ h.idxEnd
  pb := h'.pb.trans h.pb
  plen := h'.plen.trans h.plen

theorem FrameRun.payload {n : Nat} {bs : List Byte} (h : FrameRun s n bs t) : t.payload = s.payload := by
  simp [State.payload, h.pb, h.plen]

theorem frameRun_of_advance (h : step s = .next s.advance) : FrameRun s 1 [] s.advance :=
  ⟨progress_of_advance h, rfl, id, rfl, rfl⟩

theorem Writes.frameRun (h : Writes s b t) : FrameRun s 1 [b] t := ⟨h.progress, h.left, h.idxEnd, h.pb, h.plen⟩

/-- Undisturbed edges of which fewer are ready than bytes are left lead to a later point of the same frame: one byte at each ready edge. -/
theorem Framing.runs (hf : Framing s) (hl : s.live = true) (hp : s.pins = qs ++ rest) (hq : ∀ q ∈ qs, undisturbed q = true)
    (hr : readyEdges qs < s.remaining.length) :
    ∃ bs t, bs.length = readyEdges qs ∧ Framing t ∧ FrameRun s qs.length bs t := by
  induction qs generalizing s with
  | nil => exact ⟨[], s, rfl, hf, .refl s⟩
  | cons q qs ih =>
    obtain ⟨ho, hready, herr⟩ := busy_edge hl hf.inFrame hp (hq q List.mem_cons_self)
    have hq' : ∀ r ∈ qs, undisturbed r = true := fun r h => hq r (List.mem_cons_of_mem q h)
    rw [readyEdges_cons] at hr ⊢
    rw [List.length_cons, Nat.add_comm qs.length]
    rcases hc : q.txReady with _ | _
    · have hs := frameRun_of_advance (step_not_ready ho hf.inFrame (hready.trans hc))
      obtain ⟨bs, t, hbs, ht, hrun⟩ :=
        ih (s := s.advance) hf.advance hl (by rw [State.advance_pins, hp]; rfl) hq' (by rw [hc] at hr; exact hr)
      exact ⟨bs, t, hbs, ht, hs.trans hrun⟩
    · obtain ⟨b, t, hw⟩ := hf.writes ho ⟨hready.trans hc, herr hc⟩
      rw [hw.left, hc, if_pos rfl, List.length_cons, Nat.add_lt_add_iff_right] at hr
      have hbusy : t.phase ≠ .idle := fun hi => by rw [remaining_of_idle hi] at hr; exact Nat.not_lt_zero _ hr
      obtain ⟨bs, u, hbs, hu, hrun⟩ := ih (hw.framing hbusy) (hw.live.trans hl) (by rw [hw.pins, hp]; rfl) hq' hr
      exact ⟨b :: bs, u, by rw [List.length_cons, hbs]; rfl, hu, hw.frameRun.trans hrun⟩

/-- The write of the last byte left ends the frame. -/
theorem Writes.idle_of_last (h : Writes s b t) (hlen : s.remaining.length = 1) : t.phase = .idle := by
  by_contra hne
  rw [h.left, List.length_cons] at hlen
  exact (h.framing hne).remaining_ne_nil (List.length_eq_zero_iff.1 (Nat.succ.inj hlen))

/-- Undisturbed edges with a ready one for each byte left, the last of them ready, complete the frame and no more. -/
theorem Framing.finishes (hf : Framing s) (hl : s.live = true) (hp : s.pins = qs ++ rest) (hq : ∀ q ∈ qs, undisturbed q = true)
    (hlast : qs.getLast?.map (·.txReady) = some true) (hr : readyEdges qs = s.remaining.length) :
    ∃ t, t.phase = .idle ∧ t.acc = csum s.payload ∧ t.esc = false ∧ FrameRun s qs.length s.remaining t := by
  obtain ⟨q, hget, hqr⟩ := Option.map_eq_some_iff.1 hlast
  obtain ⟨before, rfl⟩ := List.getLast?_eq_some_iff.1 hget
  have hone : readyEdges [q] = 1 := by simp [readyEdges, hqr]
  rw [readyEdges_append, hone] at hr
  obtain ⟨bs, t, hbs, ht, hrun⟩ := hf.runs hl (by rw [hp, List.append_assoc]) (fun r h => hq r (List.mem_append_left _ h)) (by omega)
  have hpins : t.pins = q :: rest := by rw [hrun.pins, hp, List.append_assoc, List.drop_left]; rfl
  have hlen : t.remaining.length = 1 := by
    have := congrArg List.length hrun.left
    rw [List.length_append] at this; omega
  obtain ⟨ho, hready, herr⟩ := busy_edge (hrun.live.trans hl) ht.inFrame hpins (hq q (List.mem_append_right _ List.mem_cons_self))
  obtain ⟨b, u, hw⟩ := ht.writes ho ⟨hready.trans hqr, herr hqr⟩
  have hidle := hw.idle_of_last hlen
  have hall := hrun.trans hw.frameRun
  obtain ⟨hacc, hesc⟩ := hw.ended hidle
  refine ⟨u, hidle, hacc.trans (by rw [hrun.payload]), hesc, ?_⟩
  rw [hall.left, remaining_of_idle hidle, List.append_nil, List.length_append]
  exact hall

/-- Settles O38: the header phase is the start of the frame of whatever the buffer holds. -/
theorem encoderWritesTheFrameOfAnyPayload : Obligations.EncoderWritesTheFrameOfAnyPayload := by
  unfold Obligations.EncoderWritesTheFrameOfAnyPayload
  intro s qs rest hl hp hi he hshort hpins hq hlast hr
  have hrem : s.remaining = frame s.payload := by simp [State.remaining, hp]
  obtain ⟨t, hidle, hacc, hesc, hrun⟩ := (framing_hdr hp hi he hshort).finishes hl hpins hq hlast (by rw [hrem, hr])
  have hend : IdxAtEnd t := hrun.idxEnd (by simp [IdxAtEnd, hp])
  exact ⟨t, hrun.runs, hidle, by rw [hrun.wire, hrem], hacc, hesc, hrun.pb, hrun.plen,
    fun hz => (hend (.inr hidle) (by rwa [hrun.plen])).trans hrun.plen, hrun.fcode, hrun.accepted.trans (List.append_nil _),
    hrun.program, hrun.sched, by rw [hrun.pins, hpins, List.drop_left], hrun.live.trans hl⟩

theorem State.advance_payload (s : State) : s.advance.payload = s.payload := rfl

/-- The edge at which a valid command is accepted: the frame of its payload is then to be written (41_frame_encoder.md R121). -/
theorem accept_starts_frame (ho : s.ordinaryEdge) (hp : s.phase = .idle) (hv : s.levels.cmdValid = true)
    (hk : pack (decodeCommand s.levels.cmd) = .ok p) :
    ∃ t, t.phase = .hdr ∧ Framing t ∧ t.payload = p ∧ t.remaining = frame p ∧
      Progress s 1 [] [decodeCommand s.levels.cmd] t := by
  have hlen := length_le_of_pack hk
  have hstep := step_of_stepTo (.accept ho hp hv hk)
  refine ⟨_, ?phase, ?framing, ?payload, ?remaining, runFor_one hstep, (List.append_nil _).symm, rfl, List.drop_one.symm,
    List.drop_one.symm, rfl, rfl, rfl⟩
  case phase => rfl
  case framing => exact (framing_loadPayload _ hlen).advance
  case payload => rw [State.advance_payload, payload_loadPayload _ hlen]
  case remaining => rw [State.advance_remaining, remaining_loadPayload _ hlen]

/-- Settles O39: the accept edge, then the edges of the frame. -/
theorem acceptedCommandIsWrittenAsItsFrame : Obligations.AcceptedCommandIsWrittenAsItsFrame := by
  unfold Obligations.AcceptedCommandIsWrittenAsItsFrame
  intro s q qs rest p ho hp hv hk hpins hq hlast hr
  obtain ⟨t, hphase, hf, hpay, hrem, haccept⟩ := accept_starts_frame ho hp hv hk
  obtain ⟨u, hidle, hacc, hesc, hrun⟩ := hf.finishes (haccept.live.trans ho.1) (by rw [haccept.pins, hpins]; rfl) hq hlast
    (by rw [hrem, hr])
  have hall := haccept.trans hrun.toProgress
  have hupay : u.payload = p := hrun.payload.trans hpay
  have hnonempty : u.plen ≠ 0 := by
    intro hz
    have hnil : u.payload = [] := by simp [State.payload, hz]
    rw [← hupay, hnil] at hk
    have := length_of_pack hk
    simp at this
  have hend : IdxAtEnd u := hrun.idxEnd (by simp [IdxAtEnd, hphase])
  exact ⟨u, hall.runs, hidle, by rw [hall.wire, hrem]; rfl, hall.accepted, by rw [hall.program]; exact List.drop_one,
    by rw [hacc, hpay], hupay, hend (.inr hidle) hnonempty, hesc, hall.fcode, hall.sched,
    by rw [hall.pins, hpins, Nat.add_comm]; exact List.drop_left, hall.live.trans ho.1⟩

end Sys2Proof.Machine
end

section
/-! PROOFS. DOC0's TransmissionScheduler, one particular host (42_host_scheduler.md): its arguments, how a tick is measured and ends, the
order of a tick's steps, and what a block driven by it is never given. -/

namespace Sys2Proof.Machine

variable {s t done : State} {g : Scheduler} {b : Byte} {w : CmdWires}

/-! ### The arguments -/

theorem hzOfArgument_of_inside {a : Int} (h0 : 0 < a) (h1 : a < 100000) : hzOfArgument (some a) = a.toNat := if_pos ⟨h0, h1⟩

theorem hzOfArgument_of_outside {a : Int} (h : a ≤ 0 ∨ 100000 ≤ a) : hzOfArgument (some a) = 120 := if_neg (by omega)

theorem limitOfArgument_of_pos {a : Int} (h : 0 < a) : limitOfArgument (some a) = some a.toNat := if_pos h

theorem limitOfArgument_of_nonpos {a : Int} (h : a ≤ 0) : limitOfArgument (some a) = none := if_neg (by omega)

/-- Settles O49: the scheduler starts with what the two arguments give. -/
theorem schedulerArgumentFallback : Obligations.SchedulerArgumentFallback := by
  unfold Obligations.SchedulerArgumentFallback
  intro a b
  refine ⟨hzOfArgument_of_outside, fun h0 h1 => ?rate, limitOfArgument_of_nonpos,
    fun h => ⟨b.toNat, Int.toNat_of_nonneg h.le, limitOfArgument_of_pos h⟩, rfl, rfl, rfl⟩
  case rate => exact (congrArg Int.ofNat (hzOfArgument_of_inside h0 h1)).trans (Int.toNat_of_nonneg h0.le)

/-! ### Measuring a tick -/

/-- Both kinds of division call the whole period an overrun (42_host_scheduler.md R146). -/
theorem overrun_of_period_le {hz elapsed : Nat} (exact : Bool) (h : 1000000 ≤ elapsed * hz) : overrun exact hz elapsed = true := by
  cases exact with
  | true => exact decide_eq_true h
  | false => exact decide_eq_true (Nat.div_le_of_le_mul (by rwa [Nat.mul_comm]))

/-- A microsecond below the period neither kind of division sees an overrun: what the integer quotient drops is less than one. -/
theorem not_overrun_of_lt_period {hz elapsed : Nat} (exact : Bool) (hpos : 0 < hz) (h : elapsed * hz < 1000000 - hz) :
    overrun exact hz elapsed = false := by
  cases exact with
  | true => exact decide_eq_false (by omega)
  | false =>
    have hnext : (elapsed + 1) * hz ≤ 1000000 := by rw [Nat.succ_mul]; omega
    have hlt : elapsed < 1000000 / hz := (Nat.le_div_iff_mul_le hpos).2 hnext
    exact decide_eq_false (by omega)

/-! ### The tick boundary -/

theorem boundReached_iff {limit : Option Nat} {ticks : Nat} :
    boundReached limit ticks = true ↔ ∃ n, limit = some n ∧ n ≤ ticks := by
  cases limit <;> simp [boundReached]

/-- The scheduler stops at the bound or on the flag (42_host_scheduler.md R144 steps 5 and 6). -/
theorem endTick_stops_iff (g : Scheduler) (signalled : Bool) :
    (g.endTick signalled).running = false ↔
      (∃ n, g.tickLimit = some n ∧ n ≤ g.ticks + 1) ∨ g.cancel = true ∨ signalled = true := by
  have hrun : (g.endTick signalled).running = !(boundReached g.tickLimit (g.ticks + 1) || (g.cancel || signalled)) :=
    (Bool.not_or _ _).symm
  rw [hrun, ← boundReached_iff, Bool.not_eq_false', Bool.or_eq_true, Bool.or_eq_true]

/-- Once set, the flag stays set (42_host_scheduler.md R149). -/
theorem endTick_cancel_iff (g : Scheduler) (signalled : Bool) :
    (g.endTick signalled).cancel = true ↔ g.cancel = true ∨ signalled = true := by
  simp [Scheduler.endTick]

/-- Unbounded mode writes no diagnostic (42_host_scheduler.md R147). -/
theorem endTick_diagnostics_of_unbounded (signalled : Bool) (hl : g.tickLimit = none) :
    (g.endTick signalled).diagnostics = g.diagnostics := by
  simp [Scheduler.endTick, hl]

/-- A signal before the bound is an early exit, with its diagnostic line (42_host_scheduler.md R147, R155). -/
theorem endTick_diagnostics_of_early {n : Nat} (hl : g.tickLimit = some n) (hn : g.ticks + 1 < n) :
    (g.endTick true).diagnostics = g.diagnostics + 1 := by
  simp [Scheduler.endTick, boundReached, hl, hn]

/-- Settles O50: both kinds of division agree away from the rounding of the period, and the stop is at the bound or on the flag. -/
theorem schedulerTickEnd : Obligations.SchedulerTickEnd := by
  unfold Obligations.SchedulerTickEnd
  refine ⟨fun h exact elapsed => ⟨fun hpos hlt => ?short, fun _ hle => ?long, rfl, rfl⟩, fun h signalled =>
    ⟨rfl, rfl, endTick_stops_iff h signalled, endTick_cancel_iff h signalled, endTick_diagnostics_of_unbounded signalled⟩⟩
  case short => simp [Scheduler.measure, not_overrun_of_lt_period exact hpos hlt]
  case long => simp [Scheduler.measure, overrun_of_period_le exact hle]

/-- Settles O51: the flag stops it, and the count is below the bound. -/
theorem schedulerCancellation : Obligations.SchedulerCancellation := by
  unfold Obligations.SchedulerCancellation
  intro h n hl hn
  exact ⟨(endTick_stops_iff h true).2 (.inr (.inr rfl)), hn, endTick_diagnostics_of_early hl hn, rfl⟩

/-! ### The moves of a running scheduler -/

theorem schedulerMove_of_fault (hs : s.sched = some g) (hr : g.running = true) (hp : s.phase = .fault) :
    s.schedulerMove = some { s with program := [], sched := some g.stopOnFault } := by
  simp [State.schedulerMove, hs, hr, hp]

theorem schedulerMove_of_idle (hs : s.sched = some g) (hr : g.running = true) (hp : s.phase = .idle) (hg : s.program = []) :
    s.schedulerMove = s.tickMove g := by
  simp [State.schedulerMove, hs, hr, hp, hg]

/-- While lines are left the block has the edge in IDLE. -/
theorem schedulerMove_of_line (hp : s.phase = .idle) (hg : s.program ≠ []) : s.schedulerMove = none := by
  cases hm : s.schedulerMove with
  | none => rfl
  | some t =>
    obtain ⟨-, -, -, ⟨hf, -⟩ | ⟨-, hnil, -⟩⟩ := schedulerMove_cases hm
    · rw [hp] at hf; cases hf
    · exact absurd hnil hg

/-- The scheduler masks `rst` while it runs (42_host_scheduler.md R157). -/
theorem rst_of_running (hs : s.sched = some g) (hr : g.running = true) : s.levels.rst = false := by
  simp [levels_rst, hosted_some hs, hr]

/-- With no TICK next and no move of the scheduler, an ordinary edge comes next under a running scheduler. -/
theorem ordinaryEdge_of_running (hl : s.live = true) (hs : s.sched = some g) (hr : g.running = true)
    (hm : s.schedulerMove = none) (hg : s.program = [] ∨ s.commandNext = true) : s.ordinaryEdge := by
  refine ⟨hl, ?_, rst_of_running hs hr⟩
  rcases hostTurn_cases s with ⟨_, _, _, _, _, _, -, htick, -⟩ | ⟨_, ht, -⟩ | ⟨-, hw⟩
  · simp [htick, State.commandNext] at hg
  · rw [hm] at ht; cases ht
  · exact hw

/-- Settles O55: at each stage the tick's next move is the step, but for the suspension that is not over. -/
theorem schedulerTickInOrder : Obligations.SchedulerTickInOrder := by
  unfold Obligations.SchedulerTickInOrder
  intro s h hl hs hr hp hg
  have hmove := schedulerMove_of_idle hs hr hp hg
  have hstep : ∀ t, s.tickMove h = some t → step s = .next t := fun t ht => step_of_stepTo (.sched hl (hmove.trans ht))
  refine ⟨fun hst => ⟨Config.drawX s.edge, Config.drawY s.edge, Config.drawTh s.edge, Config.drawCalib s.edge,
    Config.drawCommand s.edge, hstep _ ?start⟩, fun hst => hstep _ ?frames, fun hst => ?suspended,
    fun hst => hstep _ ?boundary⟩
  case start => rw [State.tickMove, hst]; rfl
  case frames => rw [State.tickMove, hst]
  case boundary => rw [State.tickMove, hst]
  case suspended =>
    cases hover : Config.sleepOver s.edge with
    | true => exact .inl (hstep _ (by simp [State.tickMove, hst, hover]))
    | false =>
      have hm : s.schedulerMove = none := by simp [hmove, State.tickMove, hst, hover]
      have hv : s.levels.cmdValid = false := by simp [cmdValid_some hs, State.commandNext, hg]
      exact .inr ⟨hv, step_of_stepTo (.hold (ordinaryEdge_of_running hl hs hr hm (.inl hg)) (.inl ⟨hp, hv⟩))⟩

/-! ### What the scheduler offers -/

theorem commandNext_iff (s : State) : s.commandNext = true ↔ ∃ rest, s.program = .command s.levels.cmd :: rest :=
  ⟨cmd_of_commandNext, fun ⟨_, hg⟩ => commandNext_command hg⟩

/-- The edges at which the scheduler offers a command, and which one (42_host_scheduler.md R144, R157). -/
theorem cmdValid_iff_of_sched (hs : s.sched = some g) :
    s.levels.cmdValid = true ↔ g.running = true ∧ s.phase = .idle ∧ ∃ rest, s.program = .command s.levels.cmd :: rest := by
  rw [cmdValid_some hs, ← commandNext_iff]
  simp [and_assoc]

/-- Outside IDLE the scheduler offers nothing. -/
theorem cmdValid_of_not_idle (hs : s.sched = some g) (hp : s.phase ≠ .idle) : s.levels.cmdValid = false := by
  simp [cmdValid_some hs, hp]

/-- The scheduler's next command is accepted, whatever its tag, and is not offered again. -/
theorem offered_command_is_accepted_once {rest : List Line} (hl : s.live = true) (hs : s.sched = some g) (hr : g.running = true)
    (hp : s.phase = .idle) (hg : s.program = .command w :: rest) :
    ∃ t, step s = .next t ∧ t.accepted = s.accepted ++ [decodeCommand w] ∧ t.program = rest ∧ t.sched = some g ∧
      t.levels.cmdValid = false := by
  have hn := commandNext_command hg
  obtain ⟨rest', hg'⟩ := cmd_of_commandNext hn
  have hw : s.levels.cmd = w := by rw [hg] at hg'; cases hg'; rfl
  have hv : s.levels.cmdValid = true := (cmdValid_iff_of_sched hs).2 ⟨hr, hp, rest', hg'⟩
  have ho := ordinaryEdge_of_running hl hs hr (schedulerMove_of_line hp (by simp [hg])) (.inr hn)
  have htail : s.program.tail = rest := by rw [hg]; rfl
  subst hw
  rcases pack_decodeCommand_cases s.levels.cmd with ⟨p, hk⟩ | hk
  · exact ⟨_, step_of_stepTo (.accept ho hp hv hk), rfl, htail, hs, cmdValid_of_not_idle hs (by simp)⟩
  · exact ⟨_, step_of_stepTo (.illegal ho hp hv hk), rfl, htail, hs, cmdValid_of_not_idle hs (by simp)⟩

/-- A stopped scheduler stays as it is, and nothing more is accepted, however long the run (42_host_scheduler.md R154). -/
theorem runFor_stopped {n : Nat} (hs : s.sched = some g) (hr : g.running = false) (h : runFor n s = .next t) :
    t.sched = some g ∧ t.accepted = s.accepted := by
  induction n generalizing s with
  | zero => cases h; exact ⟨hs, rfl⟩
  | succ n ih =>
    cases hst : step s with
    | next u =>
      rw [runFor_succ hst] at h
      obtain ⟨hus, hua⟩ := step_stopped hs hr hst
      obtain ⟨hts, hta⟩ := ih hus h
      exact ⟨hts, hta.trans hua⟩
    | fault r => simp [runFor, hst] at h
    | refused r => simp [runFor, hst] at h

/-- Settles O56, clause by clause: the edges at which it offers, the accept, and the stop for good. -/
theorem schedulerOffersOnlyAfterTheFrame : Obligations.SchedulerOffersOnlyAfterTheFrame := by
  unfold Obligations.SchedulerOffersOnlyAfterTheFrame
  refine ⟨fun s h hs => cmdValid_iff_of_sched hs, fun s h w rest hl hs hr hp hg => offered_command_is_accepted_once hl hs hr hp hg,
    fun s t h n hs hr hrun => ?stopped, fun s h hs hr => ?reset⟩
  case stopped =>
    obtain ⟨hts, hta⟩ := runFor_stopped hs hr hrun
    exact ⟨hts, hta, cmdValid_of_stopped hts hr⟩
  case reset => simp [levels_rst, hosted_some hs, hr]

/-! ### What a block driven by the scheduler is never given -/

/-- The block is driven by the scheduler, all lines of its program are legal, and InvalidDatatype has not been taken
(42_host_scheduler.md R150, R157). -/
structure DrivenLegally (s : State) : Prop where
  driven : s.sched.isSome = true
  legal : ∀ l ∈ s.program, hostMayOffer l
  code : s.fcode ≠ 1

/-- The lines a TICK stands for are legal (30_encoding.md R76). -/
theorem hostMayOffer_of_mem_tickLines {x y th : BitVec 12} {calib : BitVec 13} {command : BitVec 5} {l : Line}
    (h : l ∈ tickLines x y th calib command) : hostMayOffer l := by
  simp only [tickLines, List.mem_cons, List.not_mem_nil, or_false] at h
  rcases h with rfl | rfl | rfl
  · exact .inl rfl
  · exact .inr (.inl rfl)
  · exact .inr (.inr rfl)

theorem validCommand_of_hostMayOffer (h : hostMayOffer (.command w)) : validCommand (decodeCommand w) = true := by
  rcases h with h | h | h
  · rw [decodeCommand_vel h]; rfl
  · rw [decodeCommand_rot h]; rfl
  · rw [decodeCommand_kick h]; rfl

/-- A command the scheduler has at the port is a line of its program. -/
theorem DrivenLegally.offered (h : DrivenLegally s) (hv : s.levels.cmdValid = true) : hostMayOffer (.command s.levels.cmd) := by
  obtain ⟨g, hs⟩ := Option.isSome_iff_exists.1 h.driven
  obtain ⟨-, -, rest, hg⟩ := (cmdValid_iff_of_sched hs).1 hv
  exact h.legal _ (by rw [hg]; exact List.mem_cons_self)

/-- A transport write keeps it: a failed one takes code 2. -/
theorem DrivenLegally.txWrite (h : DrivenLegally s) (hd : DrivenLegally done) : DrivenLegally (s.txWrite done b).advance := by
  obtain ⟨-, e⟩ | ⟨-, e | e⟩ := txWrite_cases s done b
  · rw [e]; exact ⟨hd.driven, hd.legal, hd.code⟩
  · rw [e]; exact ⟨h.driven, h.legal, by simp [transportWriteError]⟩
  · rw [e]; exact ⟨h.driven, h.legal, by simp [transportWriteError]⟩

/-- A move of the scheduler keeps it: the only line it ever puts on its program is TICK. -/
theorem DrivenLegally.schedulerMove (h : DrivenLegally s) (hm : s.schedulerMove = some t) : DrivenLegally t := by
  obtain ⟨g, -, -, ⟨-, rfl⟩ | ⟨-, -, htick⟩⟩ := schedulerMove_cases hm
  · exact ⟨rfl, by simp, h.code⟩
  · obtain ⟨-, rfl⟩ | ⟨-, rfl⟩ | ⟨-, -, rfl⟩ | ⟨-, rfl⟩ := tickMove_cases htick
    · exact ⟨rfl, by simp [drawnTick, hostMayOffer], h.code⟩
    · exact ⟨rfl, h.legal, h.code⟩
    · exact ⟨rfl, h.legal, h.code⟩
    · exact ⟨rfl, h.legal, h.code⟩

/-- Every step keeps it: a legal command packs, so the accept of an illegal tag cannot happen. -/
theorem step_keeps_drivenLegally (h : DrivenLegally s) (hstep : step s = .next t) : DrivenLegally t := by
  cases step_next_cases hstep with
  | reset => exact ⟨h.driven, h.legal, by simp⟩
  | tick _ _ hline =>
    refine ⟨h.driven, fun l hl => ?_, h.code⟩
    rcases List.mem_append.1 hl with hl | hl
    · exact hostMayOffer_of_mem_tickLines hl
    · exact h.legal l (by rw [hline]; exact List.mem_cons_of_mem _ hl)
  | sched _ hm => exact h.schedulerMove hm
  | hold => exact ⟨h.driven, h.legal, h.code⟩
  | accept => exact ⟨h.driven, fun l hl => h.legal l (List.mem_of_mem_tail hl), h.code⟩
  | illegal _ _ hv hbad =>
    obtain ⟨p, hk⟩ := pack_of_hostMayOffer (h.offered hv)
    rw [hk] at hbad; cases hbad
  | hdr => exact h.txWrite ⟨h.driven, h.legal, h.code⟩
  | esc => exact h.txWrite ⟨h.driven, h.legal, h.code⟩
  | payValue => exact h.txWrite ⟨h.driven, h.legal, h.code⟩
  | csumValue => exact h.txWrite ⟨h.driven, h.legal, h.code⟩

/-- A step accepts nothing, or one valid command. -/
theorem DrivenLegally.accepted (h : DrivenLegally s) (hstep : step s = .next t) :
    t.accepted = s.accepted ∨ ∃ i, validCommand i = true ∧ t.accepted = s.accepted ++ [i] := by
  rcases commandsAreAcceptedOnlyWhenReady s t hstep with hkept | ⟨-, hv, -, -, hone⟩
  · exact .inl hkept
  · exact .inr ⟨_, validCommand_of_hostMayOffer (h.offered hv), hone⟩

/-- Settles O52: `DrivenLegally` is kept by every step, and in FAULT the running scheduler's move is its stop. -/
theorem schedulerHostIsWellBehaved : Obligations.SchedulerHostIsWellBehaved := by
  unfold Obligations.SchedulerHostIsWellBehaved
  refine ⟨fun s t h _ hs hg hc hstep => ?kept, fun s h hl hs hr hp => ?stops⟩
  case kept =>
    have hd : DrivenLegally s := ⟨by rw [hs]; rfl, hg, hc⟩
    obtain ⟨hdriven, hlegal, hcode⟩ := step_keeps_drivenLegally hd hstep
    exact ⟨rst_of_running hs, hdriven, hlegal, hcode, hd.accepted hstep⟩
  case stops => exact ⟨h.stopOnFault, rfl, rfl, step_of_stepTo (.sched hl (schedulerMove_of_fault hs hr hp))⟩

end Sys2Proof.Machine
end

section
/-! PROOFS. Faults (60_exceptions.md): what is not enabled changes nothing, the entry on a failed write and the frame it cuts, and that
FAULT holds until a reset. -/

namespace Sys2Proof.Machine

variable {s t done : State} {i : Instr} {b : Byte} {qs rest : List Pins}

/-! ### What is not enabled -/

/-- A symbol that is not due, or at a transport that is not ready, writes nothing (log entry 10). -/
theorem exec_symbol_of_not_enabled {pos : WirePos} (hi : encode i = .symbol pos b)
    (hn : ¬ (s.due = some i ∧ s.levels.txReady = true)) : exec i s = .next s := by
  rw [exec_of_encode_symbol hi]
  exact congrArg Host.Outcome.next (if_neg hn)

/-- Settles O13: the commands by their phase, the symbols by their two conditions. -/
theorem notEnabledChangesNothing : Obligations.NotEnabledChangesNothing := by
  unfold Obligations.NotEnabledChangesNothing
  refine ⟨fun s x y th calib command g hp => ?commands, fun s i hi hn => ?symbols⟩
  case commands =>
    exact ⟨exec_command_of_not_idle nofun hp, exec_command_of_not_idle nofun hp, exec_command_of_not_idle nofun hp,
      exec_command_of_not_idle nofun hp, exec_command_of_not_idle nofun hp⟩
  case symbols =>
    obtain ⟨pos, b, hi⟩ : ∃ pos b, encode i = .symbol pos b := by
      rcases hi with rfl | rfl | ⟨v, rfl⟩ | ⟨b, rfl⟩ <;> exact ⟨_, _, rfl⟩
    refine exec_symbol_of_not_enabled hi fun ⟨hd, hr⟩ => ?_
    rcases hn with hdue | hready
    · exact hdue hd
    · rw [hready] at hr; cases hr

/-! ### The failed write -/

/-- At a ready transport the meaning of the symbol due is the transport write of the offered byte. -/
theorem exec_of_due (hd : s.due = some i) (hr : s.levels.txReady = true) :
    ∃ b, s.wireByte = some b ∧ exec i s = .next (s.txWrite (s.symbolWrites i) b) := by
  obtain ⟨b, hb, hs⟩ := due_eq_some_iff.1 hd
  obtain ⟨pos, hi⟩ := encode_of_decodeSymbol hs
  exact ⟨b, hb, by rw [exec_of_encode_symbol hi, writeSymbol_of_due hd hr]⟩

/-- A failed transport write is the fault entry, with the byte delivered or not (60_exceptions.md R175, log entry 7). -/
theorem txWrite_of_failure (h : s.levels.txErr = true) :
    s.txWrite done b = s.raise transportWriteError ∨ s.txWrite done b = (s.raise transportWriteError).deliver b := by
  rcases txWrite_cases s done b with ⟨he, -⟩ | ⟨-, e⟩
  · rw [h] at he; cases he
  · exact e

/-- Settles O23: the write of the symbol due is replaced by the fault entry. -/
theorem failedWriteTakesTheFault : Obligations.FailedWriteTakesTheFault := by
  unfold Obligations.FailedWriteTakesTheFault
  intro s i hd hw
  obtain ⟨b, hb, hexec⟩ := exec_of_due hd hw.1
  rw [txData_of_wireByte hb]
  refine ⟨_, hexec, ?_⟩
  rcases txWrite_of_failure (done := s.symbolWrites i) (b := b) hw.2 with e | e <;> rw [e]
  · exact ⟨rfl, .inl rfl⟩
  · exact ⟨rfl, .inr rfl⟩

/-! ### A failed write cuts the frame -/

/-- The first byte left of a logical byte is its wire byte. -/
theorem stuff_rest_eq_cons {esc : Bool} (h : esc = true → collide b = true) :
    ∃ l, (stuff b).drop (if esc then 1 else 0) = wireByteOf b esc :: l := by
  rw [stuff_rest b esc h, wireByteOf]
  split_ifs <;> exact ⟨_, rfl⟩

/-- Inside a frame the offered byte is the first one still to be written. -/
theorem Framing.remaining_eq_cons (h : Framing s) : ∃ b l, s.wireByte = some b ∧ s.remaining = b :: l := by
  rcases h.inFrame with hp | hp | hp
  · exact ⟨_, _, wireByte_of_hdr hp, by simp only [State.remaining, hp]; rfl⟩
  · obtain ⟨b, hb, hd⟩ := h.current hp
    obtain ⟨l, hl⟩ := stuff_rest_eq_cons (h.escCollides · b hb)
    exact ⟨_, _, wireByte_of_currentByte hb,
      by simp only [State.remaining, hp, hd, List.flatMap_cons, List.drop_append, hl, List.cons_append]; rfl⟩
  · have hb := currentByte_of_csum hp
    obtain ⟨l, hl⟩ := stuff_rest_eq_cons (h.escCollides · _ hb)
    exact ⟨_, l, wireByte_of_currentByte hb, by simp only [State.remaining, hp, hl]⟩

/-- Inside a frame a symbol is due. -/
theorem Framing.due (h : Framing s) : ∃ i, s.due = some i := by
  rcases h.inFrame with hp | hp | hp
  · exact ⟨_, due_of_hdr hp⟩
  · obtain ⟨b, hb, -⟩ := h.current hp
    exact ⟨_, due_of_currentByte (ne_hdr_of_currentByte hb) hb⟩
  · exact ⟨_, due_of_currentByte (by simp [hp]) (currentByte_of_csum hp)⟩

/-- The edge of a failed write inside a frame: FAULT with code 2, and at most the first byte still to be written joins the wire. -/
theorem Framing.failed_write (h : Framing s) (ho : s.ordinaryEdge) (hw : s.writeFails) :
    ∃ t, step s = .next t ∧ t.phase = .fault ∧ t.fcode = 2 ∧
      (t.wire = s.wire ∨ t.wire = s.wire ++ s.remaining.take 1) := by
  obtain ⟨i, hd⟩ := h.due
  obtain ⟨b, l, hb, hrem⟩ := h.remaining_eq_cons
  obtain ⟨u, hexec, hu, hwire⟩ := failedWriteTakesTheFault s i hd hw
  rw [txData_of_wireByte hb] at hwire
  rw [hrem, List.take_succ_cons, List.take_zero]
  refine ⟨u.advance, ?step, ?phase, ?code, hwire⟩
  case step => rw [step_of_due ho h.inFrame hw.1 hd, hexec]; rfl
  case phase => rw [hu]; rfl
  case code => rw [hu]; rfl

/-- Settles O40: the successful writes are a run inside the frame, and the failed one is the fault entry at its end. -/
theorem failedWriteCutsTheFrame : Obligations.FailedWriteCutsTheFrame := by
  unfold Obligations.FailedWriteCutsTheFrame
  intro s qs rest q k hl hp hi he hshort hpins hq hk hlt hrst hready herr
  have hrem : s.remaining = frame s.payload := by simp only [State.remaining, hp]
  obtain ⟨bs, t, hbs, hframing, hrun⟩ := (framing_hdr hp hi he hshort).runs hl hpins hq (by rw [hk, hrem]; exact hlt)
  have hraw : t.rawPins = q := rawPins_cons (qs := rest) (by rw [hrun.pins, hpins, List.drop_left])
  have hedge : t.ordinaryEdge :=
    ⟨hrun.live.trans hl, hostTurn_of_busy hframing.inFrame, by rw [levels_rst, hraw, hrst]; rfl⟩
  obtain ⟨u, hstep, hphase, hcode, hwire⟩ :=
    hframing.failed_write hedge ⟨by rw [levels_txReady, hraw, hready], by rw [levels_txErr, hraw, herr]⟩
  have hframe : frame s.payload = bs ++ t.remaining := hrem.symm.trans hrun.left
  rw [hk] at hbs
  have hfirst : (frame s.payload).take k = bs := by rw [hframe, ← hbs, List.take_left]
  have hnext : (frame s.payload).take (k + 1) = bs ++ t.remaining.take 1 := by
    rw [hframe, ← hbs, List.take_length_add_append]
  rw [hrun.wire, List.append_assoc] at hwire
  exact ⟨u, (runFor_add hrun.runs).trans (runFor_one hstep), hphase, hcode, by rwa [hfirst, hnext]⟩

/-! ### FAULT -/

/-- `rst` at the block means that no running scheduler masks it (log entry 17). -/
theorem not_hosted_of_rst (hr : s.levels.rst = true) : s.hosted = false := by
  rw [levels_rst, Bool.and_eq_true, Bool.not_eq_true'] at hr
  exact hr.2

/-- In FAULT an edge with `rst` is the RESET step (60_exceptions.md R178). -/
theorem step_fault_of_rst (hl : s.live = true) (hp : s.phase = .fault) (hr : s.levels.rst = true) :
    step s = .next s.resetWrites.advance :=
  step_reset hl ((hostTurn_eq_wait_iff (by simp [hp])).2 (schedulerMove_of_not_hosted (not_hosted_of_rst hr))) hr

/-- In FAULT a step without `rst` is the scheduler's stop or HOLD; both leave the block and the streams (60_exceptions.md R178). -/
theorem step_fault_keeps_block (hl : s.live = true) (hp : s.phase = .fault) (hr : s.levels.rst = false)
    (h : step s = .next t) : SameBlock s t := by
  rcases hm : s.schedulerMove with _ | u
  · have hwait := (hostTurn_eq_wait_iff (by simp [hp])).2 hm
    rw [step_fault ⟨hl, hwait, hr⟩ hp] at h
    cases h; exact ⟨rfl, rfl, rfl, rfl, rfl, rfl, rfl, rfl, rfl⟩
  · rw [step_of_stepTo (.sched hl hm)] at h
    cases h; rw [schedulerMove_block hm]; exact ⟨rfl, rfl, rfl, rfl, rfl, rfl, rfl, rfl, rfl⟩

/-- Settles O24: the ports in FAULT, the two kinds of step there, and R35 (f), by which a nonzero code is FAULT. -/
theorem faultIsStickyUntilReset : Obligations.FaultIsStickyUntilReset := by
  unfold Obligations.FaultIsStickyUntilReset
  refine ⟨fun s hp => ?ports, fun s t hl hp h => ⟨fun hr => ?kept, fun hr => ?left⟩, fun s t hi hl hr h hc => ?code⟩
  case ports => simp [State.cmdReady, State.txValid, State.faultOut, hp]
  case kept =>
    have hb := step_fault_keeps_block hl hp hr h
    exact ⟨hb, (faultOut_iff t).2 (hb.phase.symm.trans hp), hb.fcode.symm⟩
  case left =>
    rw [step_fault_of_rst hl hp hr] at h
    cases h; exact ⟨rfl, rfl, rfl, rfl⟩
  case code => exact (step_fault_keeps_block hl (hi.faultHasCode.2 hc) hr h).fcode.symm

end Sys2Proof.Machine
end

section
/-! PROOFS. Reset and the end of a run (70_reset_and_hazards.md): what the RESET step writes, the frame it cuts, and that a run which has
ended well has written one frame per accepted command and leaves nothing pending. -/

namespace Sys2Proof.Machine

variable {s t r : State} {i : Instr} {p : List Byte} {q : Pins} {qs rest : List Pins}

/-! ### The RESET step -/

/-- The RESET step is the same at the first reset after power-up and at a later one (R200). -/
theorem step_of_resetEdge (h : s.resetEdge) : step s = .next s.resetWrites.advance := by
  rcases h with ⟨hl, hr⟩ | ⟨hl, hw, hr⟩
  · exact step_first_reset hl hr
  · exact step_reset hl hw hr

/-- After the first reset, RESET writes three elements. -/
theorem resetWrites_of_live (hl : s.live = true) : s.resetWrites = { s with phase := .idle, esc := false, fcode := 0 } := by
  simp [State.resetWrites, hl]

/-- Settles O2: the RESET step's writes, at a later reset edge and at the first one. -/
theorem resetWritesThreeElements : Obligations.ResetWritesThreeElements := by
  unfold Obligations.ResetWritesThreeElements
  refine ⟨fun s hl hw hr => ?later, fun s hl hr => ?first⟩
  case later => rw [step_reset hl hw hr, resetWrites_of_live hl]; rfl
  case first => exact step_first_reset hl hr

/-- In IDLE an ordinary edge without a command changes neither the block nor the host's program (R201, R213). -/
theorem idle_edge_keeps_block (hp : s.phase = .idle) (ho : s.ordinaryEdge) (hv : s.levels.cmdValid = false) :
    ∃ t, step s = .next t ∧ SameBlock s t ∧ t.program = s.program :=
  ⟨_, holdChangesNoElement s ho (.inl ⟨hp, hv⟩), ⟨rfl, rfl, rfl, rfl, rfl, rfl, rfl, rfl, rfl⟩, rfl⟩

/-- Settles O3: the ports follow from the phase and the code that RESET writes, the wait from HOLD in IDLE. -/
theorem portsAfterReset : Obligations.PortsAfterReset := by
  unfold Obligations.PortsAfterReset
  intro s hreset
  refine ⟨_, step_of_resetEdge hreset, rfl, rfl, rfl, rfl, rfl, fun ho hv => ?_⟩
  obtain ⟨u, hstep, hsame, -⟩ := idle_edge_keeps_block rfl ho hv
  exact ⟨u, hstep, hsame, (cmdReady_iff u).2 hsame.phase.symm⟩

/-! ### A reset inside a frame -/

/-- From the header phase, undisturbed edges of which fewer are ready than the frame has bytes write as many of its first bytes and stay
inside it; the levels at the next edge are the next ones of the script. -/
theorem frame_start_runs (hl : s.live = true) (hp : s.phase = .hdr) (hi : s.idx = 0) (he : s.esc = false) (hshort : s.plen ≤ 5)
    (hpins : s.pins = qs ++ q :: rest) (hq : ∀ r ∈ qs, undisturbed r = true) (hlt : readyEdges qs < (frame s.payload).length) :
    ∃ t, t.inFrame ∧ t.rawPins = q ∧ FrameRun s qs.length ((frame s.payload).take (readyEdges qs)) t := by
  have hrem : s.remaining = frame s.payload := by simp only [State.remaining, hp]
  obtain ⟨bs, t, hbs, hframing, hrun⟩ := (framing_hdr hp hi he hshort).runs hl hpins hq (by rwa [hrem])
  refine ⟨t, hframing.inFrame, rawPins_cons (qs := rest) (by rw [hrun.pins, hpins, List.drop_left]), ?_⟩
  rwa [← hrem, hrun.left, ← hbs, List.take_left]

/-- Settles O41: the successful writes are a run inside the frame, and RESET is the step at its end. -/
theorem resetCutsTheFrame : Obligations.ResetCutsTheFrame := by
  unfold Obligations.ResetCutsTheFrame
  intro s qs rest q k hl hhost hp hi he hshort hpins hq hk hlt hrst
  subst hk
  obtain ⟨t, hframe, hraw, hrun⟩ := frame_start_runs hl hp hi he hshort hpins hq hlt
  have hfree : t.hosted = false := by rw [State.hosted, hrun.sched]; exact hhost
  have hreset : t.levels.rst = true := by rw [levels_rst, hraw, hrst, hfree]; rfl
  have hstep := step_reset (hrun.live.trans hl) (hostTurn_of_busy hframe) hreset
  exact ⟨_, (runFor_add hrun.runs).trans (runFor_one hstep), rfl, rfl, rfl, hrun.wire, rfl, hrun.program⟩

/-! ### A good end is quiescent -/

/-- A step in IDLE without a command at the port leaves both streams as they are, whatever step it is. -/
theorem step_idle_keeps_streams (hp : s.phase = .idle) (hv : s.levels.cmdValid = false) (h : step s = .next t) :
    t.wire = s.wire ∧ t.accepted = s.accepted := by
  constructor
  · rcases stepWritesAtMostTxData s t h with hkept | ⟨hvalid, -⟩
    · exact hkept
    · exact absurd ((txValid_iff s).1 hvalid) (not_inFrame_of_idle hp)
  · rcases commandsAreAcceptedOnlyWhenReady s t h with hkept | ⟨-, hvalid, -⟩
    · exact hkept
    · rw [hv] at hvalid; cases hvalid

/-- What a run reaches from a good end is a good end (R213). -/
theorem endedWell_of_runFor {n : Nat} (hs : s.endedWell) (h : runFor n s = .next t) : t.endedWell :=
  fun m u hu => hs (n + m) u ((runFor_add h).trans hu)

/-- After a good end both streams stay as they are. -/
theorem streams_of_endedWell {n : Nat} (hs : s.endedWell) (h : runFor n s = .next t) :
    t.wire = s.wire ∧ t.accepted = s.accepted := by
  induction n generalizing s with
  | zero => cases h; exact ⟨rfl, rfl⟩
  | succ n ih =>
    obtain ⟨hp, -, hv⟩ := hs 0 s rfl
    rcases hst : step s with u | r | r
    · rw [runFor_succ hst] at h
      obtain ⟨hwire, haccepted⟩ := step_idle_keeps_streams hp hv hst
      obtain ⟨hwire', haccepted'⟩ := ih (endedWell_of_runFor hs (runFor_one hst)) h
      exact ⟨hwire'.trans hwire, haccepted'.trans haccepted⟩
    · simp [runFor, hst] at h
    · simp [runFor, hst] at h

/-- Settles O33: every state after a good end is one, and a step there writes and accepts nothing. -/
theorem goodEndIsQuiescent : Obligations.GoodEndIsQuiescent := by
  unfold Obligations.GoodEndIsQuiescent
  refine ⟨fun s t n hs h => ?later, fun s hp ho hv => idle_edge_keeps_block hp ho hv⟩
  obtain ⟨hidle, -, -⟩ := hs n t h
  exact ⟨endedWell_of_runFor hs h, (cmdReady_iff t).2 hidle, streams_of_endedWell hs h⟩

/-! ### What a run without a fault has accepted and written -/

/-- Only the valid commands pack (40_packer.md R90). -/
theorem validCommand_of_pack (hk : pack i = .ok p) : validCommand i = true := by
  cases i with
  | vel x y th => rfl
  | rot calib => rfl
  | kick command => rfl
  | _ => cases hk

/-- A step that does not lead to FAULT accepts nothing, or one valid command (41_frame_encoder.md R121). -/
theorem accepted_of_step (h : step s = .next t) (hp : t.phase ≠ .fault) :
    t.accepted = s.accepted ∨ ∃ c, validCommand c = true ∧ t.accepted = s.accepted ++ [c] := by
  cases step_next_cases h with
  | reset => exact .inl rfl
  | tick => exact .inl rfl
  | sched _ hm => rw [schedulerMove_block hm]; exact .inl rfl
  | hold => exact .inl rfl
  | accept _ _ _ hk => exact .inr ⟨_, validCommand_of_pack hk, rfl⟩
  | illegal => exact absurd rfl hp
  | hdr => exact .inl (txWrite_advance_accepted rfl)
  | esc => exact .inl (txWrite_advance_accepted rfl)
  | payValue => exact .inl (txWrite_advance_accepted rfl)
  | csumValue => exact .inl (txWrite_advance_accepted rfl)

/-- Outside IDLE the host's only move is the stop of a running scheduler, which masks `rst`; so a step there that is not RESET is one
without `rst` (log entry 17). -/
theorem rst_of_not_resetEdge (hl : s.live = true) (hp : s.phase ≠ .idle) (hn : ¬ s.resetEdge) : s.levels.rst = false := by
  rw [← Bool.not_eq_true]
  intro hr
  exact hn (.inr ⟨hl, (hostTurn_eq_wait_iff hp).2 (schedulerMove_of_not_hosted (not_hosted_of_rst hr)), hr⟩)

/-- Within a run FAULT is not left (60_exceptions.md R178). -/
theorem step_keeps_fault (hl : s.live = true) (hp : s.phase = .fault) (hn : ¬ s.resetEdge) (h : step s = .next t) :
    t.phase = .fault :=
  (step_fault_keeps_block hl hp (rst_of_not_resetEdge hl (by simp [hp]) hn) h).phase.symm.trans hp

/-- Within a run a failed write leads to FAULT (60_exceptions.md R175). -/
theorem step_failedWrite_faults (hi : Inv s) (hl : s.live = true) (hn : ¬ s.resetEdge) (hf : s.failedWrite)
    (h : step s = .next t) : t.phase = .fault := by
  obtain ⟨hvalid, hfails⟩ := hf
  have hin : s.inFrame := (txValid_iff s).1 hvalid
  have ho : s.ordinaryEdge :=
    ⟨hl, hostTurn_of_busy hin, rst_of_not_resetEdge hl (fun hp => not_inFrame_of_idle hp hin) hn⟩
  obtain ⟨u, hu, hp, -⟩ := (framing_of_inv hi hin).failed_write ho hfails
  exact Host.Outcome.next.inj (hu.symm.trans h) ▸ hp

/-- The commands accepted since the command stream was `a` are all valid. -/
def State.validSince (a : List Instr) (s : State) : Prop := ∃ cs, s.accepted = a ++ cs ∧ ∀ c ∈ cs, validCommand c = true

/-- What every point of a run has, where `a` and `w` are the streams at its start: FAULT, or all commands valid and framed in order. -/
structure RunInv (a : List Instr) (w : List Byte) (s : State) : Prop where
  inv : Inv s
  live : s.live = true
  framed : s.phase ≠ .fault → State.framedSince a w s
  valid : s.phase ≠ .fault → State.validSince a s

section RunInv

variable {a : List Instr} {w : List Byte}

theorem validSince_refl (s : State) : State.validSince s.accepted s := ⟨[], (List.append_nil _).symm, by simp⟩

/-- A step that does not lead to FAULT keeps the accepted commands valid. -/
theorem step_keeps_validSince (hv : State.validSince a s) (h : step s = .next t) (hp : t.phase ≠ .fault) :
    State.validSince a t := by
  obtain ⟨cs, hcs, hall⟩ := hv
  rcases accepted_of_step h hp with hkept | ⟨c, hc, hone⟩
  · exact ⟨cs, hkept.trans hcs, hall⟩
  · exact ⟨cs ++ [c], by rw [hone, hcs, List.append_assoc],
      List.forall_mem_append.2 ⟨hall, List.forall_mem_singleton.2 hc⟩⟩

/-- After its RESET step a run starts with it, behind the streams as RESET leaves them. -/
theorem runInv_resetWrites (s : State) : RunInv s.accepted s.wire s.resetWrites.advance :=
  ⟨inv_idle rfl rfl, rfl, fun _ => framedSince_of_idle (s := s.resetWrites.advance) rfl,
    fun _ => validSince_refl s.resetWrites.advance⟩

/-- Every step of a run keeps it. -/
theorem RunInv.step (h : RunInv a w s) (hn : ¬ s.resetEdge) (hstep : Machine.step s = .next t) : RunInv a w t := by
  have before (hp : t.phase ≠ .fault) : s.phase ≠ .fault := fun hs => hp (step_keeps_fault h.live hs hn hstep)
  exact {
    inv := step_keeps_inv h.inv hstep
    live := (step_next_cases hstep).live h.live
    framed := fun hp => step_keeps_framedSince h.inv (h.framed (before hp)) hstep hn
      fun hf => hp (step_failedWrite_faults h.inv h.live hn hf hstep)
    valid := fun hp => step_keeps_validSince (h.valid (before hp)) hstep hp }

theorem RunInv.runTo (h : RunInv a w r) (hrun : RunTo r t) : RunInv a w t := by
  induction hrun with
  | here => exact h
  | step _ hn hstep ih => exact ih.step hn hstep

end RunInv

/-- Settles O54: the run keeps `RunInv`, and at its good end, in IDLE, no byte of a frame is left to write. -/
theorem wellEndedRunIsOneFramePerCommand : Obligations.WellEndedRunIsOneFramePerCommand := by
  unfold Obligations.WellEndedRunIsOneFramePerCommand
  intro s r t hreset hr hrun hend
  obtain rfl : s.resetWrites.advance = r := Host.Outcome.next.inj ((step_of_resetEdge hreset).symm.trans hr)
  have hinv := (runInv_resetWrites s).runTo hrun
  obtain ⟨hidle, -, -⟩ := hend 0 t rfl
  have hok : t.phase ≠ .fault := by simp [hidle]
  obtain ⟨cs, hcs, hwire⟩ := hinv.framed hok
  obtain ⟨cs', hcs', hvalid⟩ := hinv.valid hok
  obtain rfl : cs' = cs := List.append_cancel_left (hcs'.symm.trans hcs)
  rw [remaining_of_idle hidle, List.append_nil] at hwire
  exact ⟨cs', hcs, hvalid, hwire⟩

end Sys2Proof.Machine
end
